-- ==== Sys2Proof/Word.lean ====
section
/-! DEFINITION. The widths of the values the block works on (00_scope.md R5, R6). -/

namespace Sys2Proof

/-- A cell of `MSG` or `OUT` (20_memory.md R30). -/
abbrev Byte := BitVec 8

/-- A block word, a cell of `GRP`: `WORD_BITS = 32` (00_scope.md R5). -/
abbrev Word := BitVec 32

/-- An information word, bits 31:16 of a block word: `INFO_BITS = 16` (30_encoding.md R50). -/
abbrev Info := BitVec 16

/-- A checkword, bits 15:6 of a block word: `CW_BITS = 10` (30_encoding.md R50). -/
abbrev Checkword := BitVec 10

end Sys2Proof
end

