-- ==== Sys2Proof/Syntax.lean ====
section
/-! DEFINITION. The operations of the core (one constructor per row of spec/opcode_table.json), the selectors that name
them, the block-word formats, and the host's moves. -/

namespace Sys2Proof

/-- The operations of 00_scope.md R4, one constructor per row of the opcode table. The bits an encoding leaves open are
operands, so that no bit of an encoding is dropped (entry 13). -/
inductive Instr where
  /-- `ENC.PI` (41_group_encoder.md R82). -/
  | encPi
  /-- `ENC.CTRL` (41_group_encoder.md R83). -/
  | encCtrl
  /-- `ENC.CHC` (41_group_encoder.md R84). -/
  | encChc
  /-- `ENC.CHD` (41_group_encoder.md R85). -/
  | encChd
  /-- `PACK.BIT` (42_diff_packer.md R98); `lo` is `BLK[1:0]`, "any" in 30_encoding.md R58. -/
  | packBit (lo : BitVec 2)
  /-- `PACK.WORD`, 26 consecutive `PACK.BIT` steps (42_diff_packer.md R99). -/
  | packWord
  /-- `CRC.A`: `CRC(m, A)` (40_crc.md R70). -/
  | crcA (m : Info)
  /-- `CRC.B`: `CRC(m, B)` (40_crc.md R70). -/
  | crcB (m : Info)
  /-- `CRC.C`: `CRC(m, C)` (40_crc.md R70). -/
  | crcC (m : Info)
  /-- `CRC.D`: `CRC(m, D)` (40_crc.md R70). -/
  | crcD (m : Info)
  /-- `START` (43_sequencer_host.md R111); `rsv` is the reserved bits 15:1 of the value written to `CTRL`, which the
  core ignores (10_state.md R15). -/
  | start (rsv : BitVec 15)
  /-- `FINISH` (43_sequencer_host.md R114). -/
  | finish
  /-- The row "(no step)": `PHASE = IDLE`, the core takes no step (30_encoding.md R58); `lo` is `BLK[1:0]`, "any". -/
  | noStep (lo : BitVec 2)
  /-- The row "(reserved)": `PHASE = 0b11` (30_encoding.md R58, R59 (c)); `lo` is `BLK[1:0]`, "any". -/
  | reserved (lo : BitVec 2)
  deriving DecidableEq, Repr

/-- The offset selectors of 30_encoding.md R57. Exactly four exist (R59 (b)). -/
inductive Offset where
  | a
  | b
  | c
  | d
  deriving DecidableEq, Repr

/-- Where an operation is named and with which bits: the three selectors of the opcode table. -/
inductive Selector where
  /-- The sequencer's `SEL = PHASE[1:0] ++ BLK[1:0]` (30_encoding.md R58). -/
  | seq (sel : BitVec 4)
  /-- The offset selector of the CRC Generator (30_encoding.md R57) with its operand, the information word. -/
  | crc (sel : BitVec 2) (m : Info)
  /-- A 16-bit value the host writes to register 3, `CTRL` (10_state.md R15). -/
  | ctrl (value : BitVec 16)
  deriving DecidableEq, Repr

/-- The four block kinds, by position modulo 4 (00_scope.md R8). -/
inductive BlockKind where
  | pi
  | control
  | charC
  | charD
  deriving DecidableEq, Repr

/-- A block word by its fields, without the reserved bits 5:0, which the core writes 0 (30_encoding.md R51 to R53). -/
inductive Block where
  /-- Format `PI` (30_encoding.md R51). -/
  | pi (pi : Info) (cw : Checkword)
  /-- Format `CTRL` (30_encoding.md R52). -/
  | control (gt : BitVec 5) (tp : BitVec 1) (pty : BitVec 5) (ab : BitVec 1) (sega : BitVec 4) (cw : Checkword)
  /-- Format `CHAR` (30_encoding.md R53). -/
  | char (hi lo : Byte) (cw : Checkword)
  deriving DecidableEq, Repr

/-- The host-visible registers (10_state.md R11). How a number reaches the core is the open parameter `HOST_BUS`
(entry 15), so a register is its name; there is no seventh. -/
inductive HostReg where
  | piCode
  | piCheck
  | pktCount
  | ctrl
  | status
  | outLen
  deriving DecidableEq, Repr

/-- The host's moves, the rows of 43_sequencer_host.md R118: "what is not in it the host cannot do". `START` is the
write of a value with bit 0 set to `CTRL`. -/
inductive HostMove where
  | writeReg (r : HostReg) (v : BitVec 16)
  | readReg (r : HostReg)
  | writeMsg (a : Nat) (b : Byte)
  | readMsg (a : Nat)
  | writeGrp (a : Nat) (w : Word)
  | readGrp (a : Nat)
  | writeOut (a : Nat) (b : Byte)
  | readOut (a : Nat)
  | reset
  deriving DecidableEq, Repr

/-- Who moves next (entry 3). -/
inductive Turn where
  /-- The core takes its next step (43_sequencer_host.md R113). -/
  | core
  /-- The host makes a move (43_sequencer_host.md R118). -/
  | host (m : HostMove)
  /-- An operation of the opcode table is performed by its name and not through the sequencer: the model's own turn,
  for the rows no selector of the sequencer reaches (entry 4). -/
  | named (i : Instr)
  deriving DecidableEq, Repr

end Sys2Proof
end

