-- ==== Sys2Proof/WellFormed.lean ====
section
/-! DEFINITION. Which operations, host moves and turns the spec's own duties and reservations admit. Nothing in the
machine depends on it: the core ignores reserved bits (10_state.md R15) and refuses the reserved phase (30_encoding.md
R59 (c)). -/

namespace Sys2Proof

/-- An operation is well formed when it is not the reserved row (30_encoding.md R59 (c)) and, for `START`, when the
reserved bits of `CTRL` are the zeros the host is to write (10_state.md R15). -/
def Instr.wellFormed : Instr → Bool
  | .encPi => true
  | .encCtrl => true
  | .encChc => true
  | .encChd => true
  | .packBit _ => true
  | .packWord => true
  | .crcA _ => true
  | .crcB _ => true
  | .crcC _ => true
  | .crcD _ => true
  | .start rsv => rsv == 0
  | .finish => true
  | .noStep _ => true
  | .reserved _ => false

/-- The operations that a selector of the opcode table names and no other row shares: all but `PACK.WORD` and `FINISH`,
which "appear with the selector of PACK.BIT, of which they are a composition and a part" (30_encoding.md R62). -/
def Instr.hasOwnSelector : Instr → Bool
  | .packWord => false
  | .finish => false
  | .encPi => true
  | .encCtrl => true
  | .encChc => true
  | .encChd => true
  | .packBit _ => true
  | .crcA _ => true
  | .crcB _ => true
  | .crcC _ => true
  | .crcD _ => true
  | .start _ => true
  | .noStep _ => true
  | .reserved _ => true

/-- A turn of the two agents the spec has (00_scope.md R9): a core step or a host move, not an operation by name. -/
def Turn.isHardware : Turn → Bool
  | .core => true
  | .host _ => true
  | .named _ => false

end Sys2Proof
end

