-- ==== Sys2Proof/Decode.lean ====
section
/-! DEFINITION. From bits to operations and back (30_encoding.md): the three selectors, the block words, and the opcode
table's own words. -/

namespace Sys2Proof

/-! ## The selectors -/

/-- Why bits name no operation. -/
inductive Reject where
  /-- A write to `CTRL` with bit 0 clear "does nothing" (10_state.md R15): no operation. -/
  | startBitClear
  /-- The opcode table has no row of this many bits. -/
  | noSuchWidth (nbits : Nat)
  /-- The number does not fit the selector it is read as. -/
  | selectorTooWide (w : Nat)
  deriving DecidableEq, Repr

/-- The operation `SEL` selects: the complete table of 30_encoding.md R58. -/
def decodeSeq (sel : BitVec 4) : Instr :=
  let phase := sel.extractLsb' 2 2
  let lo := sel.extractLsb' 0 2
  if phase = 0b00#2 then .noStep lo
  else if phase = 0b01#2 then
    if lo = 0b00#2 then .encPi
    else if lo = 0b01#2 then .encCtrl
    else if lo = 0b10#2 then .encChc
    else .encChd
  else if phase = 0b10#2 then .packBit lo
  else .reserved lo

/-- The `CRC` row of an offset selector (30_encoding.md R57, R62). -/
def decodeCrc (sel : BitVec 2) (m : Info) : Instr :=
  if sel = 0b00#2 then .crcA m
  else if sel = 0b01#2 then .crcB m
  else if sel = 0b10#2 then .crcC m
  else .crcD m

/-- What a value written to `CTRL` commands (10_state.md R15): `START` when bit 0 is 1, nothing otherwise. -/
def decodeCtrl (v : BitVec 16) : Except Reject Instr :=
  if v.getLsbD 0 then .ok (.start (v.extractLsb' 1 15)) else .error .startBitClear

/-- The decoder: the operation a selector names, or why it names none. -/
def decode : Selector → Except Reject Instr
  | .seq sel => .ok (decodeSeq sel)
  | .crc sel m => .ok (decodeCrc sel m)
  | .ctrl v => decodeCtrl v

/-- The code of an offset selector (30_encoding.md R57). -/
def Offset.code : Offset → BitVec 2
  | .a => 0b00#2
  | .b => 0b01#2
  | .c => 0b10#2
  | .d => 0b11#2

/-- The encoder: the selector the opcode table gives an operation. `PACK.WORD` and `FINISH` have `PACK.BIT`'s
(30_encoding.md R62). -/
def encode : Instr → Selector
  | .encPi => .seq 0b0100#4
  | .encCtrl => .seq 0b0101#4
  | .encChc => .seq 0b0110#4
  | .encChd => .seq 0b0111#4
  | .packBit lo => .seq (0b10#2 ++ lo)
  | .packWord => .seq 0b1000#4
  | .crcA m => .crc Offset.a.code m
  | .crcB m => .crc Offset.b.code m
  | .crcC m => .crc Offset.c.code m
  | .crcD m => .crc Offset.d.code m
  | .start rsv => .ctrl (rsv ++ 1#1)
  | .finish => .seq 0b1000#4
  | .noStep lo => .seq (0b00#2 ++ lo)
  | .reserved lo => .seq (0b11#2 ++ lo)

/-! ## The opcode table's rows -/

/-- Which selector a row of the opcode table describes. -/
inductive Port where
  | seq
  | crc
  | ctrl
  deriving DecidableEq, Repr

/-- A row of spec/opcode_table.json: its selector, and its mask and match. -/
structure Row where
  port : Port
  mask : Nat
  value : Nat
  deriving DecidableEq, Repr

def Selector.port : Selector → Port
  | .seq _ => .seq
  | .crc _ _ => .crc
  | .ctrl _ => .ctrl

/-- The bits of a selector that the opcode table numbers. -/
def Selector.bits : Selector → Nat
  | .seq sel => sel.toNat
  | .crc sel _ => sel.toNat
  | .ctrl v => v.toNat

/-- The row of spec/opcode_table.json an operation is. -/
def tableRow : Instr → Row
  | .encPi => ⟨.seq, 0xF, 0x4⟩
  | .encCtrl => ⟨.seq, 0xF, 0x5⟩
  | .encChc => ⟨.seq, 0xF, 0x6⟩
  | .encChd => ⟨.seq, 0xF, 0x7⟩
  | .packBit _ => ⟨.seq, 0xC, 0x8⟩
  | .packWord => ⟨.seq, 0xC, 0x8⟩
  | .crcA _ => ⟨.crc, 0x3, 0x0⟩
  | .crcB _ => ⟨.crc, 0x3, 0x1⟩
  | .crcC _ => ⟨.crc, 0x3, 0x2⟩
  | .crcD _ => ⟨.crc, 0x3, 0x3⟩
  | .start _ => ⟨.ctrl, 0x0001, 0x0001⟩
  | .finish => ⟨.seq, 0xC, 0x8⟩
  | .noStep _ => ⟨.seq, 0xC, 0x0⟩
  | .reserved _ => ⟨.seq, 0xC, 0xC⟩

/-- The selector a word of the opcode table is, from its bits and how many the table gives the row. The table's 4-bit,
2-bit and 16-bit selectors are three name spaces; a word of 8 bits is a 2-bit or a 4-bit selector filled up to a whole
byte, and is read as the narrowest selector it fits; operand bytes follow the selector's byte (entry 10). -/
def tableSelector (nbits w : Nat) : Except Reject Selector :=
  if nbits = 2 then
    if w < 4 then .ok (.crc (BitVec.ofNat 2 w) 0) else .error (.selectorTooWide w)
  else if nbits = 4 then
    if w < 16 then .ok (.seq (BitVec.ofNat 4 w)) else .error (.selectorTooWide w)
  else if nbits = 8 then
    if w < 4 then .ok (.crc (BitVec.ofNat 2 w) 0)
    else if w < 16 then .ok (.seq (BitVec.ofNat 4 w))
    else .error (.selectorTooWide w)
  else if nbits = 16 then
    if w < 65536 then .ok (.ctrl (BitVec.ofNat 16 w)) else .error (.selectorTooWide w)
  else if nbits = 24 then
    if w < 16777216 then
      if w % 256 < 4 then .ok (.crc (BitVec.ofNat 2 w) (BitVec.ofNat 16 (w / 256))) else .error (.selectorTooWide w)
    else .error (.selectorTooWide w)
  else .error (.noSuchWidth nbits)

/-- The operation the decoder reads from a word of the opcode table; none where it refuses. -/
def decodeTableWord (nbits w : Nat) : Option Instr :=
  match tableSelector nbits w with
  | .ok sel =>
    match decode sel with
    | .ok i => some i
    | .error _ => none
  | .error _ => none

/-! ## Host registers -/

/-- The register numbers of 10_state.md R11. -/
def HostReg.number : HostReg → Nat
  | .piCode => 0
  | .piCheck => 1
  | .pktCount => 2
  | .ctrl => 3
  | .status => 4
  | .outLen => 5

/-! ## Block words -/

/-- `RSV_VAL` (00_scope.md R5). -/
def rsvVal : BitVec 6 := 0b000000#6

/-- `TP_VAL` (00_scope.md R5). -/
def tpVal : BitVec 1 := 0b0#1

/-- The information word of a block (30_encoding.md R52, R53, R55). -/
def Block.info : Block → Info
  | .pi code _ => code
  | .control gt tp pty ab sega _ => gt ++ tp ++ pty ++ ab ++ sega
  | .char hi lo _ => hi ++ lo

/-- The checkword of a block. -/
def Block.cw : Block → Checkword
  | .pi _ cw => cw
  | .control _ _ _ _ _ cw => cw
  | .char _ _ cw => cw

/-- The block word, `INFO ++ CW ++ RSV_VAL` (30_encoding.md R55 (f)). -/
def encodeBlock (b : Block) : Word := b.info ++ b.cw ++ rsvVal

/-- `INFO`, bits 31:16 (30_encoding.md R50). -/
def wordInfo (w : Word) : Info := w.extractLsb' 16 16

/-- `CW`, bits 15:6 (30_encoding.md R50). -/
def wordCw (w : Word) : Checkword := w.extractLsb' 6 10

/-- `RSV`, bits 5:0 (30_encoding.md R50). -/
def wordRsv (w : Word) : BitVec 6 := w.extractLsb' 0 6

/-- The block kind of block index `i`: `i mod 4` (30_encoding.md R57). -/
def kindOf (i : Nat) : BlockKind :=
  match i % 4 with
  | 0 => .pi
  | 1 => .control
  | 2 => .charC
  | _ => .charD

/-- The offset selector of a block kind equals the kind (30_encoding.md R57). -/
def BlockKind.offset : BlockKind → Offset
  | .pi => .a
  | .control => .b
  | .charC => .c
  | .charD => .d

/-- Reading a block word of a known kind back (30_encoding.md R61); the reserved bits are ignored (R59 (a)). -/
def decodeBlock (k : BlockKind) (w : Word) : Block :=
  match k with
  | .pi => .pi (wordInfo w) (wordCw w)
  | .control =>
    .control (w.extractLsb' 27 5) (w.extractLsb' 26 1) (w.extractLsb' 21 5) (w.extractLsb' 20 1) (w.extractLsb' 16 4)
      (wordCw w)
  | .charC => .char (w.extractLsb' 24 8) (w.extractLsb' 16 8) (wordCw w)
  | .charD => .char (w.extractLsb' 24 8) (w.extractLsb' 16 8) (wordCw w)

/-- The block kinds a block's format is used for (30_encoding.md R51 to R53). -/
def Block.hasKind : Block → BlockKind → Bool
  | .pi _ _, .pi => true
  | .control _ _ _ _ _ _, .control => true
  | .char _ _ _, .charC => true
  | .char _ _ _, .charD => true
  | _, _ => false

end Sys2Proof
end

