-- ==== Sys2Proof/Config.lean ====
section
/-! DEFINITION. The configuration record of 00_scope.md R5 (the parameters a model takes as arguments) and the free
values (00_scope.md R7 `unspecified_N`). The values this hardware takes stand in Machine/Params.lean. -/

namespace Sys2Proof

/-- The parameters of 00_scope.md R5 marked "argument". They are constants of the hardware (10_state.md R10); the law a
proof may rely on is the field's width and `Config.wf`. -/
structure Config where
  /-- `CRC_TABLE`, 16 entries of 10 bits (40_crc.md R72). -/
  crcTable : Vector Checkword 16
  /-- `OFFSET`, 4 entries of 10 bits, indexed by the codes of A, B, C, D (40_crc.md R73). -/
  offset : Vector Checkword 4
  /-- `GT_2A`, the group-type tag (30_encoding.md R56). -/
  gt2a : BitVec 5
  /-- `PTY_VAL`, the program-type code "none" (30_encoding.md R56). -/
  ptyVal : BitVec 5
  /-- `AB_VAL`, the text A/B flag "A" (30_encoding.md R56). -/
  abVal : BitVec 1
  /-- `MAX_PACKETS` (00_scope.md R5, 92_eei_decisions.md D4). -/
  maxPackets : Nat
  deriving DecidableEq, Repr

/-- The law of 00_scope.md R5 on `MAX_PACKETS`, premise L-PARAMS of 43_sequencer_host.md R110 (the widths are the
fields' types). -/
def Config.wf (c : Config) : Bool := decide (1 ≤ c.maxPackets) && decide (c.maxPackets ≤ 255)

/-- The `n`-th free value of width `w`: the spec's `unspecified_w`, "a fresh draw at each occurrence" (00_scope.md R7).
It has no body, so nothing can be proved of its value (entry 6). -/
opaque Config.freeValue (w n : Nat) : BitVec w

end Sys2Proof
end

