-- ==== Sys2Proof/Machine/Params.lean ====
section
/-! DEFINITION. The values this hardware takes for the parameters of 00_scope.md R5, and the sizes derived from them. -/

namespace Sys2Proof

/-- `CRC_TABLE` (40_crc.md R72). PRESUMED (92_eei_decisions.md D5, entry 2). -/
def defaultCrcTable : Vector Checkword 16 :=
  #v[0x1B9#10, 0x372#10, 0x35D#10, 0x303#10, 0x3BF#10, 0x2C7#10, 0x037#10, 0x06E#10,
     0x0DC#10, 0x1B8#10, 0x370#10, 0x359#10, 0x30B#10, 0x3AF#10, 0x2E7#10, 0x077#10]

/-- `OFFSET` (40_crc.md R73). PRESUMED (92_eei_decisions.md D6, entry 2). -/
def defaultOffset : Vector Checkword 4 := #v[0x0FC#10, 0x198#10, 0x168#10, 0x1B4#10]

/-- The configuration of this hardware (00_scope.md R5). PRESUMED where the spec says "from general knowledge"
(entry 2). -/
def defaultConfig : Config where
  crcTable := defaultCrcTable
  offset := defaultOffset
  gt2a := 0b00100#5
  ptyVal := 0b00000#5
  abVal := 0b0#1
  maxPackets := 16

/-- `MSG_SIZE = 4 * MAX_PACKETS` bytes (00_scope.md R5). -/
def Config.msgSize (c : Config) : Nat := 4 * c.maxPackets

/-- `GRP_SIZE = 4 * MAX_PACKETS` words (00_scope.md R5). -/
def Config.grpSize (c : Config) : Nat := 4 * c.maxPackets

/-- `OUT_SIZE = 13 * MAX_PACKETS` bytes (00_scope.md R5). -/
def Config.outSize (c : Config) : Nat := 13 * c.maxPackets

end Sys2Proof
end

