-- ==== Sys2Proof/Machine/State.lean ====
section
/-! DEFINITION. Everything the spec gives the machine (10_state.md R10), as plain data, and the machine after reset
(10_state.md R27, 70_reset_and_hazards.md R140). -/

namespace Sys2Proof.Machine

/-- A buffer: (index, cell) pairs with strictly rising indexes. An index that is not listed has not been written since
reset and has no value (10_state.md R27); a `Memory 8` is a list of `Host.Cell`. -/
abbrev Memory (w : Nat) := List (Nat × BitVec w)

/-- The three buffers (20_memory.md R30). -/
inductive Space where
  | msg
  | grp
  | out
  deriving DecidableEq, Repr

/-- Why the machine stops with a fault. -/
inductive Fault where
  /-- An access to a cell the space does not have (20_memory.md R30), by an `ENC.*` or `PACK.*` operation in a state no
  launch reaches, or by a host move with an index out of range. Safe: the spec gives the access no effect (entry 7). -/
  | noSuchCell (space : Space) (a : Nat)
  deriving DecidableEq, Repr

/-- Why the machine refuses. -/
inductive Refusal where
  /-- Raised by an arm of `exec` that has no meaning yet; no arm is one. Safe. -/
  | notModelled (mnemonic : String)
  /-- Raised by `START` when L-COUNT is broken (60_exceptions.md R127: "refuse(BadPacketCount)"). Safe: no claim can be
  proved of such a run. -/
  | badPacketCount
  /-- Raised by the core's step when `PHASE = 0b11` (30_encoding.md R59 (c): "the step function refuses it"). Safe. -/
  | reservedPhase
  deriving DecidableEq, Repr

/-- `PHASE` (10_state.md R18). -/
inductive Phase where
  | idle
  | encode
  | pack
  /-- Code `0b11`, never entered (30_encoding.md R59 (c)). -/
  | reserved
  deriving DecidableEq, Repr

/-- What a read returned: the column "the host gets back" of 43_sequencer_host.md R118, and the result of a `CRC` row
performed by name (entry 9). -/
inductive Answer where
  | reg (v : BitVec 16)
  | byte (b : Byte)
  | word (w : Word)
  | checkword (cw : Checkword)
  deriving DecidableEq, Repr

/-- The state of the machine. `CTRL`, `STATUS.BUSY`, `OUT_LEN` and the output `done` are views (10_state.md R15 to R17,
43_sequencer_host.md R119) and are not stored. -/
structure State where
  /-- The parameters of 00_scope.md R5: constants of the hardware, held here because `step` has one argument
  (entry 1). -/
  cfg : Config
  /-- `PI_CODE` (10_state.md R12). -/
  piCode : BitVec 16
  /-- `PI_CHECK` (10_state.md R13). -/
  piCheck : BitVec 10
  /-- `PKT_COUNT` (10_state.md R14). -/
  pktCount : BitVec 8
  /-- `STATUS.DONE` (10_state.md R16). -/
  done : Bool
  /-- `PHASE` (10_state.md R18). -/
  phase : Phase
  /-- `BLK` (10_state.md R19). -/
  blk : BitVec 10
  /-- `SEG` (10_state.md R20). -/
  seg : BitVec 4
  /-- `MPTR` (10_state.md R21). -/
  mptr : BitVec 10
  /-- `WIDX` (10_state.md R22). -/
  widx : BitVec 10
  /-- `POS` (10_state.md R22). -/
  pos : BitVec 5
  /-- `LASTBIT` (10_state.md R23). -/
  lastBit : Bool
  /-- `ACC` (10_state.md R24). -/
  acc : BitVec 8
  /-- `NBITS` (10_state.md R24). -/
  nbits : BitVec 3
  /-- `OPTR`, read by the host as `OUT_LEN` (10_state.md R25, R17). -/
  optr : BitVec 12
  /-- `MSG` (20_memory.md R31). -/
  msg : Memory 8
  /-- `GRP` (20_memory.md R32). -/
  grp : Memory 32
  /-- `OUT` (20_memory.md R33). -/
  out : Memory 8
  /-- The model's own: who moves next, in order; when it is empty the core moves (entry 3). -/
  turns : List Turn
  /-- The model's own: what the last read returned (entry 9). -/
  answer : Option Answer
  /-- The model's own: how many free values have been drawn (entry 6). -/
  draws : Nat
  deriving DecidableEq, Repr

/-- The machine right after reset (10_state.md R27): `MSG`, `GRP` and `OUT` list no cell, for every cell is unspecified.
The model's own fields start empty (DESIGN CHOICE, entries 3, 6, 9); the parameters are R5's (entries 1, 2). -/
def State.reset : State where
  cfg := defaultConfig
  piCode := 0x0000#16
  piCheck := 0x000#10
  pktCount := 0x00#8
  done := false
  phase := .idle
  blk := 0#10
  seg := 0#4
  mptr := 0#10
  widx := 0#10
  pos := 31#5
  lastBit := false
  acc := 0x00#8
  nbits := 0#3
  optr := 0#12
  msg := []
  grp := []
  out := []
  turns := []
  answer := none
  draws := 0

end Sys2Proof.Machine
end

