-- ==== Sys2Proof/Machine/Ops.lean ====
section
/-! DEFINITION. The shared operations: cells of the buffers, free values, and the effects several operations have in
common. The hardware raises no exception (60_exceptions.md R125) and has no trap entry or return (R130, R131), so there
is no exception-taking operation. -/

namespace Sys2Proof.Machine

/-- The outcome of a part of a step that yields an `α`. -/
abbrev Result (α : Type) := Host.Outcome α Fault Refusal

/-- Go on after a part of a step, unless it stopped. -/
def thenDo {α β : Type} (r : Result α) (f : α → Result β) : Result β :=
  match r with
  | .next a => f a
  | .fault e => .fault e
  | .refused e => .refused e

/-! ## Buffers -/

/-- The value of a cell, or none if nothing has written it since reset (10_state.md R27). -/
def Memory.read {w : Nat} : Memory w → Nat → Option (BitVec w)
  | [], _ => none
  | c :: m, a => if c.1 = a then some c.2 else Memory.read m a

/-- Write a cell, keeping the indexes strictly rising. -/
def Memory.write {w : Nat} : Memory w → Nat → BitVec w → Memory w
  | [], a, v => [(a, v)]
  | c :: m, a, v =>
    if a < c.1 then (a, v) :: c :: m
    else if a = c.1 then (a, v) :: m
    else c :: Memory.write m a v

/-- Every index is at least `lo` and below `size`, and they strictly rise. -/
def Memory.wfFrom {w : Nat} (size : Nat) : Nat → Memory w → Bool
  | _, [] => true
  | lo, c :: m => decide (lo ≤ c.1) && decide (c.1 < size) && Memory.wfFrom size (c.1 + 1) m

/-- The canonical form of a buffer of `size` cells: indexes strictly rising and inside the space. -/
def Memory.wf {w : Nat} (size : Nat) (m : Memory w) : Bool := Memory.wfFrom size 0 m

/-! ## Free values -/

/-- A fresh `unspecified_w` (00_scope.md R7). -/
def draw (w : Nat) (s : State) : BitVec w × State :=
  (Config.freeValue w s.draws, { s with draws := s.draws + 1 })

/-- The value of a cell, or a fresh free value if nothing has written the cell since reset (10_state.md R27,
93_implementation_defined.md U12). -/
def orDraw {w : Nat} (c : Option (BitVec w)) (s : State) : BitVec w × State :=
  match c with
  | some v => (v, s)
  | none => draw w s

/-! ## Whole-cell accesses (20_memory.md R36, R37) -/

/-- `MemRead(MSG, a, 1)`. -/
def readMsg (a : Nat) (s : State) : Result (Byte × State) :=
  if a < s.cfg.msgSize then .next (orDraw (s.msg.read a) s) else .fault (.noSuchCell .msg a)

/-- `MemRead(GRP, a, 1)`. -/
def readGrp (a : Nat) (s : State) : Result (Word × State) :=
  if a < s.cfg.grpSize then .next (orDraw (s.grp.read a) s) else .fault (.noSuchCell .grp a)

/-- `MemRead(OUT, a, 1)`. -/
def readOut (a : Nat) (s : State) : Result (Byte × State) :=
  if a < s.cfg.outSize then .next (orDraw (s.out.read a) s) else .fault (.noSuchCell .out a)

/-- `MemWrite(MSG, a, 1, b)`. -/
def writeMsg (a : Nat) (b : Byte) (s : State) : Result State :=
  if a < s.cfg.msgSize then .next { s with msg := s.msg.write a b } else .fault (.noSuchCell .msg a)

/-- `MemWrite(GRP, a, 1, w)`. -/
def writeGrp (a : Nat) (w : Word) (s : State) : Result State :=
  if a < s.cfg.grpSize then .next { s with grp := s.grp.write a w } else .fault (.noSuchCell .grp a)

/-- `MemWrite(OUT, a, 1, b)`. -/
def writeOut (a : Nat) (b : Byte) (s : State) : Result State :=
  if a < s.cfg.outSize then .next { s with out := s.out.write a b } else .fault (.noSuchCell .out a)

/-! ## Shared effects -/

/-- `advance()`, the tail of every `ENC.*` step (41_group_encoder.md R81): the next block, and the turn to `PACK` after
the last one (43_sequencer_host.md R112). -/
def advance (s : State) : State :=
  { s with
    blk := s.blk + 1
    phase := if s.blk.toNat + 1 = 4 * s.pktCount.toNat then .pack else s.phase }

/-- `MPTR <- MPTR + 2` (41_group_encoder.md R84, R85). -/
def consumeChars (s : State) : State := { s with mptr := s.mptr + 2 }

/-- `SEG <- (SEG + 1) mod 16` (41_group_encoder.md R85). -/
def nextSegment (s : State) : State := { s with seg := s.seg + 1 }

/-- `FINISH()` (43_sequencer_host.md R114). -/
def finishPass (s : State) : State := { s with phase := .idle, done := true }

/-- The eleven writes of an accepted `START` (43_sequencer_host.md R111). -/
def beginPass (s : State) : State :=
  { s with
    done := false
    blk := 0#10
    seg := 0#4
    mptr := 0#10
    widx := 0#10
    pos := 31#5
    lastBit := false
    acc := 0x00#8
    nbits := 0#3
    optr := 0#12
    phase := .encode }

/-- Hand a read's result to whoever asked. -/
def giveAnswer (x : Answer) (s : State) : State := { s with answer := some x }

end Sys2Proof.Machine
end

