-- ==== Sys2Proof/Machine/Flags.lean ====
section
/-! DEFINITION. The flag-like bits (10_state.md R26): `BUSY`, `DONE`, `LASTBIT`, and what is computed from them. -/

namespace Sys2Proof.Machine

/-- The codes of `PHASE` (10_state.md R18). -/
def Phase.code : Phase → BitVec 2
  | .idle => 0b00#2
  | .encode => 0b01#2
  | .pack => 0b10#2
  | .reserved => 0b11#2

/-- The phase of a code (10_state.md R18). -/
def Phase.ofCode (c : BitVec 2) : Phase :=
  if c = 0b00#2 then .idle
  else if c = 0b01#2 then .encode
  else if c = 0b10#2 then .pack
  else .reserved

/-- `STATUS.BUSY`: 1 exactly when `PHASE != IDLE` (10_state.md R16). -/
def State.busy (s : State) : Bool := s.phase != .idle

/-- `STATUS` as the host reads it (10_state.md R16): bit 0 `BUSY`, bit 1 `DONE`, bits 15:2 zero. -/
def State.status (s : State) : BitVec 16 := 0#14 ++ BitVec.ofBool s.done ++ BitVec.ofBool s.busy

/-- The level output `done` (43_sequencer_host.md R119). -/
def State.doneOutput (s : State) : Bool := s.done

/-- The differential rule (42_diff_packer.md R96): the output bit of a protocol bit. The bit carried forward in
`LASTBIT` is the protocol bit itself. -/
def diffBit (current last : Bool) : Bool := current ^^ last

end Sys2Proof.Machine
end

