-- ==== Sys2Proof/Machine/Operands.lean ====
section
/-! DEFINITION. What the operations read: the selector, the characters, the protocol bit. -/

namespace Sys2Proof.Machine

/-- `SEL = PHASE[1:0] ++ BLK[1:0]` (30_encoding.md R58). -/
def State.sel (s : State) : BitVec 4 := s.phase.code ++ s.blk.extractLsb' 0 2

/-- The next two unconsumed message bytes, high character first, as two reads (41_group_encoder.md R84;
20_memory.md R37). -/
def readChars (s : State) : Result (Byte × Byte × State) :=
  thenDo (readMsg s.mptr.toNat s) fun hi =>
    thenDo (readMsg (s.mptr.toNat + 1) hi.2) fun lo => .next (hi.1, lo.1, lo.2)

/-- The protocol bit at `POS` of a block word (42_diff_packer.md R98 "w[POS]"). -/
def protocolBit (w : Word) (pos : BitVec 5) : Bool := w.getLsbD pos.toNat

/-- What reading `MSG[a]` yields when `k` other free values are drawn first: the cell, or a free value if nothing has
written it since reset (10_state.md R27). -/
def msgByte (s : State) (k a : Nat) : Byte := (s.msg.read a).getD (Config.freeValue 8 (s.draws + k))

/-- What reading `GRP[a]` yields. -/
def grpWord (s : State) (a : Nat) : Word := (s.grp.read a).getD (Config.freeValue 32 s.draws)

/-- 1 if a read of the cell draws a free value, else 0. -/
def drawsFor {w : Nat} (c : Option (BitVec w)) : Nat := if c.isNone then 1 else 0

end Sys2Proof.Machine
end

