-- ==== Sys2Proof/Machine/Crc.lean ====
section
/-! DEFINITION. The CRC Generator (40_crc.md): operation `CRC`, its serial and long-division forms, and the four `CRC.*`
rows. -/

namespace Sys2Proof.Machine

/-- `CRC_TABLE[i]` (40_crc.md R72); the generator only asks for `i` below 16. -/
def crcEntry (table : Vector Checkword 16) (i : Nat) : Checkword := (table[i]?).getD 0

/-- `OFFSET[s]` (40_crc.md R73). -/
def offsetWord (c : Config) : Offset → Checkword
  | .a => c.offset[0]
  | .b => c.offset[1]
  | .c => c.offset[2]
  | .d => c.offset[3]

/-- `r(n)` of 40_crc.md R70: the XOR of the table entries of the set bits of `m` below `n`. -/
def crcPartial (table : Vector Checkword 16) (m : Info) : Nat → Checkword
  | 0 => 0
  | i + 1 => if m.getLsbD i then crcPartial table m i ^^^ crcEntry table i else crcPartial table m i

/-- The remainder part, `rem(m)` of 40_crc.md R75 (c). -/
def crcRem (table : Vector Checkword 16) (m : Info) : Checkword := crcPartial table m 16

/-- `CRC(m, s)` (40_crc.md R70). -/
def crc (c : Config) (m : Info) (o : Offset) : Checkword := crcRem c.crcTable m ^^^ offsetWord c o

/-! ## Equivalent forms (40_crc.md R74) -/

/-- `G_POLY`, the generator polynomial's coefficients (40_crc.md R71). -/
def gPoly : BitVec 11 := 0x5B9#11

/-- One turn of the loop of `CRC_serial` (40_crc.md R74). -/
def crcSerialStep (r : Checkword) (bit : Bool) : Checkword :=
  if r.getLsbD 9 ^^ bit then (r <<< 1) ^^^ 0x1B9#10 else r <<< 1

/-- The loop of `CRC_serial` over the bits `n - 1` down to 0 of `m`. -/
def crcSerialFrom (m : Info) : Nat → Checkword → Checkword
  | 0, r => r
  | i + 1, r => crcSerialFrom m i (crcSerialStep r (m.getLsbD i))

/-- `CRC_serial(m, s)` without its offset (40_crc.md R74). -/
def crcSerial (m : Info) : Checkword := crcSerialFrom m 16 0

/-- The loop of the long division over the bits `n + 9` down to 10 of `v` (40_crc.md R74). -/
def longDivFrom : Nat → BitVec 26 → BitVec 26
  | 0, v => v
  | i + 1, v => longDivFrom i (if v.getLsbD (i + 10) then v ^^^ (gPoly.setWidth 26 <<< i) else v)

/-- The remainder of a 26-bit polynomial modulo `g(x)` (40_crc.md R74). -/
def longDiv (v : BitVec 26) : Checkword := (longDivFrom 16 v).setWidth 10

/-- `m(x) * x^10` (40_crc.md R71). -/
def shiftedInfo (m : Info) : BitVec 26 := m ++ 0#10

/-- How a table entry follows from the one before (40_crc.md R72). -/
def crcTableNext (e : Checkword) : Checkword := if e.getLsbD 9 then (e <<< 1) ^^^ 0x1B9#10 else e <<< 1

/-! ## The four rows (30_encoding.md R62). They write no state of the machine; the result is the answer (entry 9). -/

/-- `CRC.A`. -/
def execCrcA (m : Info) (s : State) : Result State := .next (giveAnswer (.checkword (crc s.cfg m .a)) s)

/-- `CRC.B`. -/
def execCrcB (m : Info) (s : State) : Result State := .next (giveAnswer (.checkword (crc s.cfg m .b)) s)

/-- `CRC.C`. -/
def execCrcC (m : Info) (s : State) : Result State := .next (giveAnswer (.checkword (crc s.cfg m .c)) s)

/-- `CRC.D`. -/
def execCrcD (m : Info) (s : State) : Result State := .next (giveAnswer (.checkword (crc s.cfg m .d)) s)

end Sys2Proof.Machine
end

