-- ==== Sys2Proof/Machine/Encoder.lean ====
section
/-! DEFINITION. The Group Encoder (41_group_encoder.md): `ENC.PI`, `ENC.CTRL`, `ENC.CHC`, `ENC.CHD`. Each is one step,
selected by the sequencer (30_encoding.md R58); the arms do not check `PHASE` again (entry 12). -/

namespace Sys2Proof.Machine

/-- The kind-0 block word: the PI code and the host's checkword, copied (41_group_encoder.md R82). -/
def piWord (piCode : BitVec 16) (piCheck : BitVec 10) : Word := encodeBlock (.pi piCode piCheck)

/-- The information word of the control block of segment `seg` (41_group_encoder.md R83). -/
def controlInfo (c : Config) (seg : BitVec 4) : Info := c.gt2a ++ tpVal ++ c.ptyVal ++ c.abVal ++ seg

/-- The kind-1 block word of segment `seg` (41_group_encoder.md R83). -/
def controlWord (c : Config) (seg : BitVec 4) : Word :=
  encodeBlock (.control c.gt2a tpVal c.ptyVal c.abVal seg (crc c (controlInfo c seg) .b))

/-- The kind-2 or kind-3 block word of two characters (41_group_encoder.md R84, R85). -/
def charWord (c : Config) (o : Offset) (hi lo : Byte) : Word := encodeBlock (.char hi lo (crc c (hi ++ lo) o))

/-- The part `ENC.CHC` and `ENC.CHD` share (41_group_encoder.md R84, R85). -/
def encodeChars (o : Offset) (s : State) : Result State :=
  thenDo (readChars s) fun r =>
    thenDo (writeGrp s.blk.toNat (charWord s.cfg o r.1 r.2.1) r.2.2) fun t => .next (advance (consumeChars t))

/-- `ENC.PI` (41_group_encoder.md R82). -/
def execEncPi (s : State) : Result State :=
  thenDo (writeGrp s.blk.toNat (piWord s.piCode s.piCheck) s) fun t => .next (advance t)

/-- `ENC.CTRL` (41_group_encoder.md R83). -/
def execEncCtrl (s : State) : Result State :=
  thenDo (writeGrp s.blk.toNat (controlWord s.cfg s.seg) s) fun t => .next (advance t)

/-- `ENC.CHC` (41_group_encoder.md R84). -/
def execEncChc (s : State) : Result State := encodeChars .c s

/-- `ENC.CHD` (41_group_encoder.md R85). -/
def execEncChd (s : State) : Result State := thenDo (encodeChars .d s) fun t => .next (nextSegment t)

end Sys2Proof.Machine
end

