-- ==== Sys2Proof/Machine/Packer.lean ====
section
/-! DEFINITION. The Differential Bitstream Packer (42_diff_packer.md): `PACK.BIT`, `PACK.WORD`, `FINISH`. -/

namespace Sys2Proof.Machine

/-- Shift an output bit into `ACC` at the bottom (42_diff_packer.md R98 "ACC[6:0] ++ out"). -/
def shiftIn (acc : BitVec 8) (o : Bool) : BitVec 8 := acc.extractLsb' 0 7 ++ BitVec.ofBool o

/-- Append an output bit, completing the byte at `OPTR` on the eighth (42_diff_packer.md R98). -/
def appendBit (o : Bool) (s : State) : Result State :=
  if s.nbits = 7#3 then
    thenDo (writeOut s.optr.toNat (shiftIn s.acc o) s) fun t =>
      .next { t with acc := shiftIn s.acc o, optr := s.optr + 1, nbits := 0#3 }
  else .next { s with acc := shiftIn s.acc o, nbits := s.nbits + 1 }

/-- Move to the next protocol bit; after the last one of the last word, FINISH (42_diff_packer.md R98). -/
def nextBit (s : State) : State :=
  if s.pos = 6#5 then
    if s.widx.toNat + 1 = 4 * s.pktCount.toNat then finishPass { s with pos := 31#5, widx := s.widx + 1 }
    else { s with pos := 31#5, widx := s.widx + 1 }
  else { s with pos := s.pos - 1 }

/-- Pack one protocol bit (42_diff_packer.md R98). -/
def packOne (s : State) : Result State :=
  thenDo (readGrp s.widx.toNat s) fun r =>
    thenDo (appendBit (diffBit (protocolBit r.1 s.pos) s.lastBit) r.2) fun t =>
      .next (nextBit { t with lastBit := protocolBit r.1 s.pos })

/-- Pack `n` protocol bits, one after the other. -/
def packMany : Nat → State → Result State
  | 0, s => .next s
  | n + 1, s => thenDo (packOne s) (packMany n)

/-- `PACK.BIT` (42_diff_packer.md R98). `BLK[1:0]` has no effect on it (30_encoding.md R58 "any"). -/
def execPackBit (_lo : BitVec 2) (s : State) : Result State := packOne s

/-- `PACK.WORD`: "a name for 26 consecutive PACK.BIT steps" (42_diff_packer.md R99; entry 11). -/
def execPackWord (s : State) : Result State := packMany 26 s

/-- `FINISH` (43_sequencer_host.md R114). -/
def execFinish (s : State) : Result State := .next (finishPass s)

end Sys2Proof.Machine
end

