-- ==== Sys2Proof/Machine/Sequencer.lean ====
section
/-! DEFINITION. `START` and the two selector values that name no operation (43_sequencer_host.md R111, R113;
30_encoding.md R58, R59). -/

namespace Sys2Proof.Machine

/-- L-COUNT: `1 <= PKT_COUNT <= MAX_PACKETS` (43_sequencer_host.md R110). -/
def State.countOk (s : State) : Bool := decide (1 ≤ s.pktCount.toNat) && decide (s.pktCount.toNat ≤ s.cfg.maxPackets)

/-- `START` (43_sequencer_host.md R111): ignored while busy, refused on a bad packet count (60_exceptions.md R127),
else the pass begins. The reserved bits are ignored (10_state.md R15). -/
def execStart (_rsv : BitVec 15) (s : State) : Result State :=
  if s.busy then .next s
  else if s.countOk then .next (beginPass s)
  else .refused .badPacketCount

/-- No step: in `IDLE` the core waits for `START` and nothing changes (30_encoding.md R58, 43_sequencer_host.md R113;
entry 5). -/
def execNoStep (_lo : BitVec 2) (s : State) : Result State := .next s

/-- The reserved phase: "the step function refuses it" (30_encoding.md R59 (c)). -/
def execReserved (_lo : BitVec 2) (_s : State) : Result State := .refused .reservedPhase

end Sys2Proof.Machine
end

