-- ==== Sys2Proof/Machine/Dispatch.lean ====
section
/-! DEFINITION. One arm per operation. -/

namespace Sys2Proof.Machine

def exec (i : Instr) (s : State) : Host.Outcome State Fault Refusal :=
  match i with
  | .encPi => Sys2Proof.Machine.execEncPi s
  | .encCtrl => Sys2Proof.Machine.execEncCtrl s
  | .encChc => Sys2Proof.Machine.execEncChc s
  | .encChd => Sys2Proof.Machine.execEncChd s
  | .packBit lo => Sys2Proof.Machine.execPackBit lo s
  | .packWord => Sys2Proof.Machine.execPackWord s
  | .crcA m => Sys2Proof.Machine.execCrcA m s
  | .crcB m => Sys2Proof.Machine.execCrcB m s
  | .crcC m => Sys2Proof.Machine.execCrcC m s
  | .crcD m => Sys2Proof.Machine.execCrcD m s
  | .start rsv => Sys2Proof.Machine.execStart rsv s
  | .finish => Sys2Proof.Machine.execFinish s
  | .noStep lo => Sys2Proof.Machine.execNoStep lo s
  | .reserved lo => Sys2Proof.Machine.execReserved lo s

end Sys2Proof.Machine
end

