-- ==== Sys2Proof/Machine/HostPort.lean ====
section
/-! DEFINITION. The host's moves, row by row of 43_sequencer_host.md R118, with the ownership rules of 20_memory.md R38:
writes that take effect only while `BUSY = 0`, reads that are unspecified while `BUSY = 1`. -/

namespace Sys2Proof.Machine

/-- A write to `CTRL` (10_state.md R15): the command the value decodes to, or nothing. -/
def hostWriteCtrl (v : BitVec 16) (s : State) : Result State :=
  match decode (.ctrl v) with
  | .ok (.start rsv) => execStart rsv s
  | _ => .next s

/-- A 16-bit register write (10_state.md R11): bits above the register's width are ignored; registers 0 to 2 keep their
value while busy; `STATUS` and `OUT_LEN` ignore it. -/
def hostWriteReg (r : HostReg) (v : BitVec 16) (s : State) : Result State :=
  match r with
  | .piCode => .next (if s.busy then s else { s with piCode := v })
  | .piCheck => .next (if s.busy then s else { s with piCheck := v.setWidth 10 })
  | .pktCount => .next (if s.busy then s else { s with pktCount := v.setWidth 8 })
  | .ctrl => hostWriteCtrl v s
  | .status => .next s
  | .outLen => .next s

/-- A 16-bit register read (10_state.md R11): bits above the register's width read 0; `CTRL` reads 0 (R15); `OUT_LEN` is
`unspecified_12` while busy (R17). -/
def hostReadReg (r : HostReg) (s : State) : Result State :=
  match r with
  | .piCode => .next (giveAnswer (.reg s.piCode) s)
  | .piCheck => .next (giveAnswer (.reg (s.piCheck.setWidth 16)) s)
  | .pktCount => .next (giveAnswer (.reg (s.pktCount.setWidth 16)) s)
  | .ctrl => .next (giveAnswer (.reg 0x0000#16) s)
  | .status => .next (giveAnswer (.reg s.status) s)
  | .outLen =>
    if s.busy then .next (giveAnswer (.reg ((draw 12 s).1.setWidth 16)) (draw 12 s).2)
    else .next (giveAnswer (.reg (s.optr.setWidth 16)) s)

/-- A write of `MSG[a]`: ignored while busy (20_memory.md R38). -/
def hostWriteMsg (a : Nat) (b : Byte) (s : State) : Result State :=
  thenDo (writeMsg a b s) fun t => .next (if s.busy then s else t)

/-- A read of `MSG[a]`: the current value at any time (20_memory.md R38). -/
def hostReadMsg (a : Nat) (s : State) : Result State :=
  thenDo (readMsg a s) fun r => .next (giveAnswer (.byte r.1) r.2)

/-- A write of `GRP[a]`: ignored at any time (20_memory.md R38); a cell that does not exist faults (entry 16). -/
def hostWriteGrp (a : Nat) (w : Word) (s : State) : Result State := thenDo (writeGrp a w s) fun _ => .next s

/-- A read of `GRP[a]`: unspecified while busy (20_memory.md R38). -/
def hostReadGrp (a : Nat) (s : State) : Result State :=
  thenDo (readGrp a s) fun r =>
    if s.busy then .next (giveAnswer (.word (draw 32 s).1) (draw 32 s).2) else .next (giveAnswer (.word r.1) r.2)

/-- A write of `OUT[a]`: ignored at any time (20_memory.md R38); a cell that does not exist faults (entry 16). -/
def hostWriteOut (a : Nat) (b : Byte) (s : State) : Result State := thenDo (writeOut a b s) fun _ => .next s

/-- A read of `OUT[a]`: unspecified while busy (20_memory.md R38). -/
def hostReadOut (a : Nat) (s : State) : Result State :=
  thenDo (readOut a s) fun r =>
    if s.busy then .next (giveAnswer (.byte (draw 8 s).1) (draw 8 s).2) else .next (giveAnswer (.byte r.1) r.2)

/-- Reset (70_reset_and_hazards.md R140): every register at its reset value and every buffer cell unspecified, whatever
was happening (60_exceptions.md R129 (a)). The parameters and the model's own fields stay (entry 8). -/
def resetMachine (s : State) : State :=
  { State.reset with cfg := s.cfg, turns := s.turns, answer := s.answer, draws := s.draws }

/-- A host move (43_sequencer_host.md R118). -/
def hostMove (m : HostMove) (s : State) : Result State :=
  match m with
  | .writeReg r v => hostWriteReg r v s
  | .readReg r => hostReadReg r s
  | .writeMsg a b => hostWriteMsg a b s
  | .readMsg a => hostReadMsg a s
  | .writeGrp a w => hostWriteGrp a w s
  | .readGrp a => hostReadGrp a s
  | .writeOut a b => hostWriteOut a b s
  | .readOut a => hostReadOut a s
  | .reset => .next (resetMachine s)

end Sys2Proof.Machine
end

