-- ==== Sys2Proof/Machine/Turns.lean ====
section
/-! DEFINITION. One turn of the machine: whose it is, and what it does (43_sequencer_host.md R113; entry 3). -/

namespace Sys2Proof.Machine

/-- The core's step: the operation `SEL` selects "and nothing else" (30_encoding.md R58). -/
def coreTurn (s : State) : Result State := exec (decodeSeq s.sel) s

/-- One turn, taken off the list; the core's when the list is empty. -/
def takeTurn (s : State) : Result State :=
  match s.turns with
  | [] => coreTurn s
  | .core :: ts => coreTurn { s with turns := ts }
  | .host m :: ts => hostMove m { s with turns := ts }
  | .named i :: ts => exec i { s with turns := ts }

/-- Place a selector where the next turn takes its operation from: the sequencer's in `PHASE` and `BLK[1:0]`, a value
written to `CTRL` as the host's next move, an offset selector as a turn by name (entry 10). -/
def placeSelector (sel : Selector) (s : State) : State :=
  match sel with
  | .seq x =>
    { s with
      phase := Phase.ofCode (x.extractLsb' 2 2)
      blk := s.blk.extractLsb' 2 8 ++ x.extractLsb' 0 2
      turns := .core :: s.turns }
  | .crc x m => { s with turns := .named (decodeCrc x m) :: s.turns }
  | .ctrl v => { s with turns := .host (.writeReg .ctrl v) :: s.turns }

end Sys2Proof.Machine
end

