-- ==== Sys2Proof/Machine/Step.lean ====
section
/-! DEFINITION. The step of the machine, and the placing of a word of the opcode table where the step takes its next
operation from. -/

namespace Sys2Proof.Machine

/-- One step: one turn (Machine/Turns.lean). -/
def step (s : State) : Host.Outcome State Fault Refusal := takeTurn s

/-- `s` with a word of the opcode table placed where the next step takes its operation from (entry 10). -/
def State.withFetchWord (s : State) (nbits w : Nat) : State :=
  match tableSelector nbits w with
  | .ok sel => placeSelector sel s
  | .error _ => s

end Sys2Proof.Machine
end

