-- ==== Sys2Proof/Machine/ClosedForm.lean ====
section
/-! DEFINITION. The spec's closed forms: the pass as a function (41_group_encoder.md R86, 42_diff_packer.md R99, R100,
R102, R103, 43_sequencer_host.md R116). The step does not use them; statements compare it with them. -/

namespace Sys2Proof.Machine

/-- The block word of index `i` (41_group_encoder.md R86). -/
def blockAt (c : Config) (piCode : BitVec 16) (piCheck : BitVec 10) (msg : Nat → Byte) (i : Nat) : Word :=
  match kindOf i with
  | .pi => piWord piCode piCheck
  | .control => controlWord c (BitVec.ofNat 4 (i / 4))
  | .charC => charWord c .c (msg (4 * (i / 4))) (msg (4 * (i / 4) + 1))
  | .charD => charWord c .d (msg (4 * (i / 4) + 2)) (msg (4 * (i / 4) + 3))

/-- `encodeGroups` (41_group_encoder.md R80, R86). -/
def encodeGroups (c : Config) (piCode : BitVec 16) (piCheck : BitVec 10) (msg : Nat → Byte) (n : Nat) : List Word :=
  (List.range (4 * n)).map (blockAt c piCode piCheck msg)

/-- `c[b]`, the `b`-th protocol bit of the words `g` (42_diff_packer.md R97). -/
def protoBit (g : Nat → Word) (b : Nat) : Bool := (g (b / 26)).getLsbD (31 - b % 26)

/-- The protocol bit before the `b`-th, taken as 0 before the first (42_diff_packer.md R97, R100). -/
def protoBefore (g : Nat → Word) : Nat → Bool
  | 0 => false
  | b + 1 => protoBit g b

/-- `o[b]` (42_diff_packer.md R100). -/
def outBit (g : Nat → Word) (b : Nat) : Bool := diffBit (protoBit g b) (protoBefore g b)

/-- Eight bits as a byte, the first in bit 7 (20_memory.md R35 (c)). -/
def byteOf (f : Nat → Bool) : Byte :=
  BitVec.ofBool (f 0) ++ BitVec.ofBool (f 1) ++ BitVec.ofBool (f 2) ++ BitVec.ofBool (f 3) ++ BitVec.ofBool (f 4) ++
    BitVec.ofBool (f 5) ++ BitVec.ofBool (f 6) ++ BitVec.ofBool (f 7)

/-- `OUT[j]` (42_diff_packer.md R100). -/
def outByte (g : Nat → Word) (j : Nat) : Byte := byteOf fun k => outBit g (8 * j + k)

/-- `packDifferential` on any list of words (42_diff_packer.md R102): `ceil(26*W/8)` bytes; the pad bits of a partly
filled last byte are the argument `pad`, which nothing constrains (entry 19). -/
def packDifferential (pad : Nat → Bool) (ws : List Word) : List Byte :=
  (List.range ((26 * ws.length + 7) / 8)).map fun j =>
    byteOf fun k => if 8 * j + k < 26 * ws.length then outBit (fun i => ws.getD i 0) (8 * j + k) else pad (8 * j + k)

/-- The inverse, a running exclusive-or (42_diff_packer.md R103). -/
def undoDifferential (o : Nat → Bool) : Nat → Bool
  | 0 => o 0
  | b + 1 => o (b + 1) ^^ undoDifferential o b

/-- The output bit of position `p` of a word packed after the bit `last` (42_diff_packer.md R99). -/
def wordOutBit (w : Word) (last : Bool) (p : Nat) : Bool :=
  diffBit (w.getLsbD p) (if p = 31 then last else w.getLsbD (p + 1))

/-- `o[b]` as the driver reads it from `OUT` (30_encoding.md R54, 43_sequencer_host.md R121). -/
def outBitAt (s : State) (b : Nat) : Option Bool := (s.out.read (b / 8)).map fun x => x.getLsbD (7 - b % 8)

end Sys2Proof.Machine
end

