-- ==== Sys2Proof/Safety.lean ====
section
/-! DEFINITION. The launch premises (43_sequencer_host.md R110), which turns may stand in a pass (R113), the invariant of
reachable states (10_state.md R28), and the validity of block words (30_encoding.md R61), in the terms the statements
use. -/

namespace Sys2Proof

/-- The cell a host move names, if it names one, exists (20_memory.md R30). -/
def HostMove.cellExists (c : Config) : HostMove → Bool
  | .writeReg _ _ => true
  | .readReg _ => true
  | .writeMsg a _ => decide (a < c.msgSize)
  | .readMsg a => decide (a < c.msgSize)
  | .writeGrp a _ => decide (a < c.grpSize)
  | .readGrp a => decide (a < c.grpSize)
  | .writeOut a _ => decide (a < c.outSize)
  | .readOut a => decide (a < c.outSize)
  | .reset => true

/-- A turn that may stand between the core steps of a pass without ending it (43_sequencer_host.md R113): the core's, or
a host move other than reset whose cell exists. -/
def Turn.mayJoinPass (c : Config) : Turn → Bool
  | .core => true
  | .host m => m.cellExists c && decide (m ≠ .reset)
  | .named _ => false

end Sys2Proof

namespace Sys2Proof.Machine

/-! ## Launch premises (43_sequencer_host.md R110) -/

/-- L-IDLE. -/
def LIdle (s : State) : Prop := s.phase = .idle

/-- L-COUNT. -/
def LCount (s : State) : Prop := 1 ≤ s.pktCount.toNat ∧ s.pktCount.toNat ≤ s.cfg.maxPackets

/-- L-MSG: every cell the pass reads has been written since reset. -/
def LMsg (s : State) : Prop := ∀ a, a < 4 * s.pktCount.toNat → (s.msg.read a).isSome = true

/-- L-PARAMS. -/
def LParams (s : State) : Prop := s.cfg.wf = true

/-- L-PICHECK, needed only for the validity of kind-0 words. -/
def LPiCheck (s : State) : Prop := s.piCheck = crc s.cfg s.piCode .a

/-- A launch the spec gives a meaning to. -/
structure Launch (s : State) : Prop where
  idle : LIdle s
  count : LCount s
  msg : LMsg s
  params : LParams s

/-! ## Validity -/

/-- A block word of kind `k` is valid when its checkword is the CRC of its information word (30_encoding.md R61). -/
def validWord (c : Config) (k : BlockKind) (w : Word) : Prop := wordCw w = crc c (wordInfo w) k.offset

/-! ## Whose turn it is, and which turns may stand between the core steps of a pass (43_sequencer_host.md R113) -/

/-- The next step is the core's (entry 3). -/
def State.coreMoves (s : State) : Bool :=
  match s.turns with
  | [] => true
  | .core :: _ => true
  | .host _ :: _ => false
  | .named _ :: _ => false

/-! ## The invariant of reachable states (10_state.md R28) -/

/-- The packer's registers as `START` leaves them (10_state.md R28 (b)). -/
structure PackerFresh (s : State) : Prop where
  lastBit : s.lastBit = false
  acc : s.acc = 0x00#8
  nbits : s.nbits = 0#3
  optr : s.optr = 0#12
  widx : s.widx = 0#10
  pos : s.pos = 31#5

/-- `MPTR` during `ENCODE` (10_state.md R21). -/
def mptrDuring (blk : Nat) : Nat := 4 * (blk / 4) + (if blk % 4 = 3 then 2 else 0)

/-- 10_state.md R28 (b), without the contents of `GRP`. -/
structure EncodeInv (s : State) : Prop where
  blk : s.blk.toNat < 4 * s.pktCount.toNat
  seg : s.seg = s.blk.extractLsb' 2 4
  mptr : s.mptr.toNat = mptrDuring s.blk.toNat
  fresh : PackerFresh s

/-- The number of bits packed so far, `b = 26*WIDX + (31-POS)` (10_state.md R28 (c)). -/
def packedBits (s : State) : Nat := 26 * s.widx.toNat + (31 - s.pos.toNat)

/-- 10_state.md R28 (c), without the contents of `GRP`. -/
structure PackInv (s : State) : Prop where
  blk : s.blk.toNat = 4 * s.pktCount.toNat
  mptr : s.mptr.toNat = 4 * s.pktCount.toNat
  widx : s.widx.toNat < 4 * s.pktCount.toNat
  pos : 6 ≤ s.pos.toNat
  optr : s.optr.toNat = packedBits s / 8
  nbits : s.nbits.toNat = packedBits s % 8
  first : packedBits s = 0 → s.lastBit = false

/-- 10_state.md R28 (d): what a finished pass of `n` packets leaves, whatever `PKT_COUNT` has become since. -/
structure FinishedInv (n : Nat) (s : State) : Prop where
  atLeastOne : 1 ≤ n
  atMost : n ≤ s.cfg.maxPackets
  blk : s.blk.toNat = 4 * n
  mptr : s.mptr.toNat = 4 * n
  widx : s.widx.toNat = 4 * n
  pos : s.pos = 31#5
  nbits : s.nbits = 0#3
  optr : s.optr.toNat = 13 * n

/-- The three buffers are in canonical form and inside their spaces. -/
structure BuffersWf (s : State) : Prop where
  msg : s.msg.wf s.cfg.msgSize = true
  grp : s.grp.wf s.cfg.grpSize = true
  out : s.out.wf s.cfg.outSize = true

/-- The invariant of reachable states (10_state.md R28), of runs of the two agents the spec has (no turn by name,
entry 4). -/
structure Inv (s : State) : Prop where
  params : LParams s
  buffers : BuffersWf s
  hardware : ∀ t ∈ s.turns, t.isHardware = true
  phase : s.phase ≠ .reserved
  count : s.phase ≠ .idle → LCount s
  notBoth : s.done = true → s.phase = .idle
  encode : s.phase = .encode → EncodeInv s
  pack : s.phase = .pack → PackInv s
  finished : s.phase = .idle → s.done = true → ∃ n, FinishedInv n s

/-- During `ENCODE`, `GRP[0 ..< BLK]` holds the block words already produced; from then on, all of them
(10_state.md R28 (b)). -/
structure GroupsInv (msg : Nat → Byte) (s : State) : Prop where
  message : ∀ a, a < 4 * s.pktCount.toNat → s.msg.read a = some (msg a)
  produced : ∀ i, i < s.blk.toNat → s.grp.read i = some (blockAt s.cfg s.piCode s.piCheck msg i)

/-- The bytes packed so far, the bits waiting in `ACC`, and the last raw bit (10_state.md R28 (c), R24). -/
structure OutInv (g : Nat → Word) (s : State) : Prop where
  words : ∀ i, i < 4 * s.pktCount.toNat → s.grp.read i = some (g i)
  bytes : ∀ j, j < packedBits s / 8 → s.out.read j = some (outByte g j)
  waiting : ∀ k, k < packedBits s % 8 → s.acc.getLsbD k = outBit g (packedBits s - 1 - k)
  last : s.lastBit = protoBefore g (packedBits s)

/-- The bits a `PACK.WORD` step has at hand, oldest first: those waiting in `ACC`, then the word's 26 output bits
(42_diff_packer.md R99). -/
def pendingBit (s : State) (w : Word) (i : Nat) : Bool :=
  if i < s.nbits.toNat then s.acc.getLsbD (s.nbits.toNat - 1 - i)
  else wordOutBit w s.lastBit (31 - (i - s.nbits.toNat))

/-- How many steps a busy core has left (43_sequencer_host.md R113): `108*PKT_COUNT` in a whole pass. -/
def stepsLeft (s : State) : Nat :=
  match s.phase with
  | .encode => (4 * s.pktCount.toNat - s.blk.toNat) + 104 * s.pktCount.toNat
  | .pack => 104 * s.pktCount.toNat - packedBits s
  | .idle => 0
  | .reserved => 0

/-- The registers and the message the host owns while the core is idle (20_memory.md R38). -/
def hostOwned (s : State) : BitVec 16 × BitVec 10 × BitVec 8 × Memory 8 := (s.piCode, s.piCheck, s.pktCount, s.msg)

end Sys2Proof.Machine
end

