-- ==== Sys2Proof/Certificates/Slice0/Obligations.lean ====
section
/-! DEFINITION. The statements for the provers, grouped as the spec's files are. Where a statement rests on a choice of
the model's, its docstring names the log entry. -/

open Sys2Proof Sys2Proof.Machine

/-! ## Selectors and formats (30_encoding.md) -/

/-- Words written out from the tables of R57, R58 and R15: what each selector value decodes to. -/
def Obligations.SelectorWordsDecodeAsTabled : Prop :=
  decode (.seq 0b0100#4) = .ok .encPi ∧ decode (.seq 0b0101#4) = .ok .encCtrl ∧
    decode (.seq 0b0110#4) = .ok .encChc ∧ decode (.seq 0b0111#4) = .ok .encChd ∧
    (∀ lo : BitVec 2, decode (.seq (0b00#2 ++ lo)) = .ok (.noStep lo) ∧
      decode (.seq (0b10#2 ++ lo)) = .ok (.packBit lo) ∧ decode (.seq (0b11#2 ++ lo)) = .ok (.reserved lo)) ∧
    decode (.crc 0b00#2 0x54A8#16) = .ok (.crcA 0x54A8#16) ∧ decode (.crc 0b01#2 0x2000#16) = .ok (.crcB 0x2000#16) ∧
    decode (.crc 0b10#2 0x2020#16) = .ok (.crcC 0x2020#16) ∧ decode (.crc 0b11#2 0x2020#16) = .ok (.crcD 0x2020#16) ∧
    decode (.ctrl 0x0001#16) = .ok (.start 0#15) ∧ decode (.ctrl 0xFFFF#16) = .ok (.start 0x7FFF#15) ∧
    decode (.ctrl 0xFFFE#16) = .error .startBitClear

/-- R58, R57, R15: decoding what the encoder writes gives the operation back, with every operand, for every operation
that has a selector of its own (R62). -/
def Obligations.DecodeOfEncodeGivesOperationBack : Prop :=
  ∀ i : Instr, i.hasOwnSelector = true → decode (encode i) = .ok i

/-- The other direction: a selector value that decodes to an operation is that operation's encoding, and the only values
rejected are writes to `CTRL` with bit 0 clear (R15). -/
def Obligations.EncodeOfDecodeGivesSelectorBack : Prop :=
  (∀ (sel : Selector) (i : Instr), decode sel = .ok i → encode i = sel ∧ i.hasOwnSelector = true) ∧
    (∀ (sel : Selector) (r : Reject), decode sel = .error r → ∃ v, sel = .ctrl v ∧ v.getLsbD 0 = false)

/-- R62: `PACK.WORD` and `FINISH` appear with the selector of `PACK.BIT`. -/
def Obligations.CompositeRowsHaveTheSelectorOfPackBit : Prop :=
  decode (encode .packWord) = .ok (.packBit 0#2) ∧ decode (encode .finish) = .ok (.packBit 0#2)

/-- R50 to R53, R55 (f), R61: reading a block word back gives its fields; the word is
`(INFO << 16) | (CW << 6)` and its six low bits are zero. -/
def Obligations.BlockWordReadsBackItsFields : Prop :=
  ∀ (b : Block) (k : BlockKind), b.hasKind k = true →
    decodeBlock k (encodeBlock b) = b ∧ wordInfo (encodeBlock b) = b.info ∧ wordCw (encodeBlock b) = b.cw ∧
      wordRsv (encodeBlock b) = 0#6 ∧
      encodeBlock b = ((b.info.setWidth 32) <<< 16 ||| (b.cw.setWidth 32) <<< 6)

/-- R61: with this hardware's constants every control word matches `0x20000000` under the mask `0xFFF0003F`, and carries
its segment in bits 19:16; R55 (b): its information word is `0x2000 | SEG`. The constants are the model's configuration
(entry 2). -/
def Obligations.ControlWordsMatchTheirPattern : Prop :=
  ∀ (c : Config) (seg : BitVec 4), c.gt2a = 0b00100#5 → c.ptyVal = 0b00000#5 → c.abVal = 0b0#1 →
    controlWord c seg &&& 0xFFF0003F#32 = 0x20000000#32 ∧ (controlWord c seg).extractLsb' 16 4 = seg ∧
      controlInfo c seg = 0x2000#16 ||| seg.setWidth 16

/-! ## The CRC Generator (40_crc.md) -/

/-- R70: the checkword is the exclusive-or of the table entries at the set bits of `m`, and of the offset word of the
selector; each `CRC` row completes in every state with it, and writes no state of the machine. -/
def Obligations.CrcRowsAnswerTheChecksum : Prop :=
  ∀ (m : Info) (s : State),
    let sum : Checkword := ((List.finRange 16).filter fun i => m.getLsbD i.val).foldl (fun r i => r ^^^ s.cfg.crcTable[i]) 0
    exec (.crcA m) s = .next { s with answer := some (.checkword (sum ^^^ s.cfg.offset[0])) } ∧
      exec (.crcB m) s = .next { s with answer := some (.checkword (sum ^^^ s.cfg.offset[1])) } ∧
      exec (.crcC m) s = .next { s with answer := some (.checkword (sum ^^^ s.cfg.offset[2])) } ∧
      exec (.crcD m) s = .next { s with answer := some (.checkword (sum ^^^ s.cfg.offset[3])) }

/-- R75 (a), (c) to (f), for any table and offsets. -/
def Obligations.CrcLawsHoldForAnyTable : Prop :=
  ∀ (c : Config) (m₁ m₂ : Info) (o p : Offset),
    crcRem c.crcTable (m₁ ^^^ m₂) = crcRem c.crcTable m₁ ^^^ crcRem c.crcTable m₂ ∧
      crc c m₁ o ^^^ crc c m₁ p = offsetWord c o ^^^ offsetWord c p ∧
      crc c 0#16 o = offsetWord c o ∧
      (∀ i : Fin 16, crc c (1#16 <<< i.val) o = c.crcTable[i] ^^^ offsetWord c o) ∧ (crc c m₁ o).toNat ≤ 1023

/-- R72, R71: the first entry is `G_POLY[9:0]`, each entry follows from the one before, and entry `i` is
`x^(i+10) mod g(x)`. -/
def Obligations.CrcTableFollowsFromThePolynomial : Prop :=
  defaultCrcTable[0] = gPoly.setWidth 10 ∧
    (∀ i : Fin 15, defaultCrcTable[i.val + 1] = crcTableNext defaultCrcTable[i.val]) ∧
    (∀ i : Fin 16, defaultCrcTable[i] = longDiv (1#26 <<< (i.val + 10)))

/-- R74: with the table of R72 the table form, the serial form and the long-division form agree for every information
word and offset. -/
def Obligations.CrcTableFormEqualsSerialAndLongDivision : Prop :=
  ∀ (c : Config) (m : Info) (o : Offset), c.crcTable = defaultCrcTable →
    crc c m o = crcSerial m ^^^ offsetWord c o ∧ crc c m o = longDiv (shiftedInfo m) ^^^ offsetWord c o

/-- R75 (g): with the table of R72 the 26-bit word `INFO ++ rem(INFO)` is divisible by `g(x)`. -/
def Obligations.InfoWithRemainderIsDivisible : Prop :=
  ∀ m : Info, longDiv (m ++ crcRem defaultCrcTable m) = 0#10

/-- R75 (h): 64 information words share each remainder: whatever the six high bits, each remainder is that of exactly
one choice of the ten low bits. With the table of R72. -/
def Obligations.SixtyFourWordsShareEachRemainder : Prop :=
  ∀ (hi : BitVec 6) (r : Checkword), ∃! lo : BitVec 10, crcRem defaultCrcTable (hi ++ lo) = r

/-! ## The Group Encoder (41_group_encoder.md) -/

/-- R82, with the tail of R81. The cell must exist (R30; entry 7 for the other states). -/
def Obligations.EncPiWritesThePiBlock : Prop :=
  (∀ s : State, s.phase = .encode → s.blk.extractLsb' 0 2 = 0b00#2 → decode (.seq s.sel) = .ok .encPi) ∧
  ∀ s : State, s.blk.toNat < s.cfg.grpSize →
    ∃ t, exec .encPi s = .next t ∧
      t.grp.read s.blk.toNat = some (s.piCode ++ s.piCheck ++ 0b000000#6) ∧
      (∀ a, a ≠ s.blk.toNat → t.grp.read a = s.grp.read a) ∧
      t.blk = s.blk + 1 ∧
      t.phase = (if s.blk.toNat + 1 = 4 * s.pktCount.toNat then .pack else s.phase) ∧
      (s.blk.extractLsb' 0 2 = 0b00#2 → t.phase = s.phase) ∧
      t = { s with grp := t.grp, blk := t.blk, phase := t.phase }

/-- R83, with the tail of R81. The cell must exist (R30; entry 7 for the other states). -/
def Obligations.EncCtrlWritesTheControlBlock : Prop :=
  (∀ s : State, s.phase = .encode → s.blk.extractLsb' 0 2 = 0b01#2 → decode (.seq s.sel) = .ok .encCtrl) ∧
  ∀ s : State, s.blk.toNat < s.cfg.grpSize →
    let info : Info := s.cfg.gt2a ++ 0b0#1 ++ s.cfg.ptyVal ++ s.cfg.abVal ++ s.seg
    ∃ t, exec .encCtrl s = .next t ∧
      t.grp.read s.blk.toNat = some (info ++ crc s.cfg info .b ++ 0b000000#6) ∧
      (∀ a, a ≠ s.blk.toNat → t.grp.read a = s.grp.read a) ∧
      t.blk = s.blk + 1 ∧
      t.phase = (if s.blk.toNat + 1 = 4 * s.pktCount.toNat then .pack else s.phase) ∧
      (s.blk.extractLsb' 0 2 = 0b01#2 → t.phase = s.phase) ∧
      t = { s with grp := t.grp, blk := t.blk, phase := t.phase }

/-- R84, with the tail of R81, for written and unwritten message cells (an unwritten one is a free value, R27). The
cells must exist (R30; entry 7 for the other states). -/
def Obligations.EncChcWritesCharacterBlockC : Prop :=
  (∀ s : State, s.phase = .encode → s.blk.extractLsb' 0 2 = 0b10#2 → decode (.seq s.sel) = .ok .encChc) ∧
  ∀ s : State, s.blk.toNat < s.cfg.grpSize → s.mptr.toNat + 1 < s.cfg.msgSize →
    let hi := msgByte s 0 s.mptr.toNat
    let lo := msgByte s (drawsFor (s.msg.read s.mptr.toNat)) (s.mptr.toNat + 1)
    ∃ t, exec .encChc s = .next t ∧
      t.grp.read s.blk.toNat = some (hi ++ lo ++ crc s.cfg (hi ++ lo) .c ++ 0b000000#6) ∧
      (∀ a, a ≠ s.blk.toNat → t.grp.read a = s.grp.read a) ∧
      t.mptr = s.mptr + 2 ∧ t.blk = s.blk + 1 ∧
      t.phase = (if s.blk.toNat + 1 = 4 * s.pktCount.toNat then .pack else s.phase) ∧
      (s.blk.extractLsb' 0 2 = 0b10#2 → t.phase = s.phase) ∧
      t.draws = s.draws + drawsFor (s.msg.read s.mptr.toNat) + drawsFor (s.msg.read (s.mptr.toNat + 1)) ∧
      t = { s with grp := t.grp, mptr := t.mptr, blk := t.blk, phase := t.phase, draws := t.draws }

/-- R85, with the tail of R81, for written and unwritten message cells (an unwritten one is a free value, R27). The
cells must exist (R30; entry 7 for the other states). -/
def Obligations.EncChdWritesCharacterBlockDAndEndsThePacket : Prop :=
  (∀ s : State, s.phase = .encode → s.blk.extractLsb' 0 2 = 0b11#2 → decode (.seq s.sel) = .ok .encChd) ∧
  ∀ s : State, s.blk.toNat < s.cfg.grpSize → s.mptr.toNat + 1 < s.cfg.msgSize →
    let hi := msgByte s 0 s.mptr.toNat
    let lo := msgByte s (drawsFor (s.msg.read s.mptr.toNat)) (s.mptr.toNat + 1)
    ∃ t, exec .encChd s = .next t ∧
      t.grp.read s.blk.toNat = some (hi ++ lo ++ crc s.cfg (hi ++ lo) .d ++ 0b000000#6) ∧
      (∀ a, a ≠ s.blk.toNat → t.grp.read a = s.grp.read a) ∧
      t.mptr = s.mptr + 2 ∧ t.seg.toNat = (s.seg.toNat + 1) % 16 ∧ t.blk = s.blk + 1 ∧
      t.phase = (if s.blk.toNat + 1 = 4 * s.pktCount.toNat then .pack else s.phase) ∧
      t.draws = s.draws + drawsFor (s.msg.read s.mptr.toNat) + drawsFor (s.msg.read (s.mptr.toNat + 1)) ∧
      t = { s with grp := t.grp, mptr := t.mptr, seg := t.seg, blk := t.blk, phase := t.phase, draws := t.draws }

/-- R88: a checkword the core computes is valid for its kind by construction; a kind-0 word is valid if and only if the
host supplied `PI_CHECK = CRC(PI_CODE, A)` (R146). -/
def Obligations.EncodedWordsAreValidForTheirKind : Prop :=
  (∀ s t : State, exec .encCtrl s = .next t → ∃ w, t.grp.read s.blk.toNat = some w ∧ validWord s.cfg .control w) ∧
    (∀ s t : State, exec .encChc s = .next t → ∃ w, t.grp.read s.blk.toNat = some w ∧ validWord s.cfg .charC w) ∧
    (∀ s t : State, exec .encChd s = .next t → ∃ w, t.grp.read s.blk.toNat = some w ∧ validWord s.cfg .charD w) ∧
    (∀ s t : State, exec .encPi s = .next t →
      ∃ w, t.grp.read s.blk.toNat = some w ∧ (validWord s.cfg .pi w ↔ LPiCheck s))

/-- R87, R89 (b), (c): in the closed form the control block of packet `k` carries segment `k mod 16`, whatever the
message, and a shorter pass is the beginning of a longer one. -/
def Obligations.SegmentsCountPacketsAndPassesExtend : Prop :=
  (∀ (c : Config) (piCode : BitVec 16) (piCheck : BitVec 10) (msg : Nat → Byte) (k : Nat),
    ((blockAt c piCode piCheck msg (4 * k + 1)).extractLsb' 16 4).toNat = k % 16) ∧
    (∀ (c : Config) (piCode : BitVec 16) (piCheck : BitVec 10) (m₁ m₂ : Nat → Byte) (n₁ n₂ : Nat), n₁ ≤ n₂ →
      (∀ a, a < 4 * n₁ → m₁ a = m₂ a) →
      (encodeGroups c piCode piCheck m₂ n₂).take (4 * n₁) = encodeGroups c piCode piCheck m₁ n₁)

/-! ## The Differential Bitstream Packer (42_diff_packer.md) -/

/-- R98: one protocol bit, for a written or unwritten word (an unwritten one is a free value, R27), with FINISH on the
last (R114). The cells must exist (R30; entry 7 for the other states). -/
def Obligations.PackBitAppendsTheDifferentialBit : Prop :=
  (∀ s : State, s.phase = .pack → ∃ lo, decode (.seq s.sel) = .ok (.packBit lo)) ∧
  ∀ (lo : BitVec 2) (s : State), s.widx.toNat < s.cfg.grpSize → (s.nbits = 7#3 → s.optr.toNat < s.cfg.outSize) →
    let cur := (grpWord s s.widx.toNat).getLsbD s.pos.toNat
    ∃ t, exec (.packBit lo) s = .next t ∧
      t.lastBit = cur ∧ t.acc.getLsbD 0 = (cur ^^ s.lastBit) ∧
      (∀ k, k < 7 → t.acc.getLsbD (k + 1) = s.acc.getLsbD k) ∧
      (if s.nbits = 7#3 then
        t.out.read s.optr.toNat = some t.acc ∧ (∀ a, a ≠ s.optr.toNat → t.out.read a = s.out.read a) ∧
          t.optr = s.optr + 1 ∧ t.nbits = 0#3
      else t.out = s.out ∧ t.optr = s.optr ∧ t.nbits = s.nbits + 1) ∧
      (if s.pos = 6#5 then t.pos = 31#5 ∧ t.widx = s.widx + 1 else t.pos = s.pos - 1 ∧ t.widx = s.widx) ∧
      (if s.pos = 6#5 ∧ s.widx.toNat + 1 = 4 * s.pktCount.toNat then t.phase = .idle ∧ t.done = true
      else t.phase = s.phase ∧ t.done = s.done) ∧
      t.draws = s.draws + drawsFor (s.grp.read s.widx.toNat) ∧
      t = { s with lastBit := t.lastBit, acc := t.acc, out := t.out, optr := t.optr, nbits := t.nbits, pos := t.pos,
                   widx := t.widx, phase := t.phase, done := t.done, draws := t.draws }

/-- R99: `PACK.WORD` from `POS = 31` on a written word in closed form: the 26 output bits join the waiting ones, whole
bytes go to `OUT`, the rest waits in `ACC`; `LASTBIT` is bit 6 of the word. -/
def Obligations.PackWordPacksTheWordInClosedForm : Prop :=
  ∀ (s : State) (w : Word), s.cfg.wf = true → s.pos = 31#5 → s.widx.toNat < s.cfg.grpSize →
    s.grp.read s.widx.toNat = some w → s.optr.toNat + (s.nbits.toNat + 26) / 8 ≤ s.cfg.outSize →
    ∃ t, exec .packWord s = .next t ∧
      t.pos = 31#5 ∧ t.widx = s.widx + 1 ∧ t.lastBit = w.getLsbD 6 ∧
      t.optr.toNat = s.optr.toNat + (s.nbits.toNat + 26) / 8 ∧ t.nbits.toNat = (s.nbits.toNat + 26) % 8 ∧
      (∀ j, j < (s.nbits.toNat + 26) / 8 →
        t.out.read (s.optr.toNat + j) = some (byteOf fun k => pendingBit s w (8 * j + k))) ∧
      (∀ a, a < s.optr.toNat ∨ s.optr.toNat + (s.nbits.toNat + 26) / 8 ≤ a → t.out.read a = s.out.read a) ∧
      (∀ k, k < t.nbits.toNat → t.acc.getLsbD k = pendingBit s w (s.nbits.toNat + 25 - k)) ∧
      (if s.widx.toNat + 1 = 4 * s.pktCount.toNat then t.phase = .idle ∧ t.done = true
      else t.phase = s.phase ∧ t.done = s.done) ∧
      t = { s with lastBit := t.lastBit, acc := t.acc, out := t.out, optr := t.optr, nbits := t.nbits, widx := t.widx,
                   phase := t.phase, done := t.done }

/-- R99: `PACK.WORD` is 26 consecutive `PACK.BIT` steps (also where `POS` is not 31: entry 11), and from `POS = 31` it
completes on any word, written or not, and moves to the next. -/
def Obligations.PackWordCompletesOnAnyWord : Prop :=
  (∀ s : State, exec .packWord s = Nat.repeat (fun r => thenDo r (exec (.packBit 0))) 26 (.next s)) ∧
  ∀ s : State, s.cfg.wf = true → s.pos = 31#5 → s.widx.toNat < s.cfg.grpSize →
    s.optr.toNat + (s.nbits.toNat + 26) / 8 ≤ s.cfg.outSize →
    ∃ t, exec .packWord s = .next t ∧ t.pos = 31#5 ∧ t.widx = s.widx + 1 ∧
      t.optr.toNat = s.optr.toNat + (s.nbits.toNat + 26) / 8 ∧ t.nbits.toNat = (s.nbits.toNat + 26) % 8 ∧
      t.grp = s.grp ∧ t.msg = s.msg ∧ t.draws = s.draws + 26 * drawsFor (s.grp.read s.widx.toNat)

/-- R103: the running exclusive-or recovers the protocol bits from the output bits, and the overruled formula
(`90_conflicts.md` C3) yields `c[b] ^ c[b-2]` instead. -/
def Obligations.RunningXorRecoversTheProtocolBits : Prop :=
  ∀ (g : Nat → Word) (b : Nat),
    undoDifferential (outBit g) b = protoBit g b ∧
      (outBit g (b + 2) ^^ outBit g (b + 1)) = (protoBit g (b + 2) ^^ protoBit g b)

/-- R104 (a), R60: bits 5:0 of the words have no effect on the output. -/
def Obligations.ReservedBitsNeverReachTheOutput : Prop :=
  ∀ (g g' : Nat → Word), (∀ i, (g i).extractLsb' 6 26 = (g' i).extractLsb' 6 26) → ∀ j, outByte g j = outByte g' j

/-- R104 (c), (d): complementing every protocol bit changes only the first output bit; an output 1 marks a change
between consecutive protocol bits. -/
def Obligations.OutputMarksChangesOfTheProtocolBit : Prop :=
  (∀ (g g' : Nat → Word), (∀ i, g' i = ~~~ g i) →
    outBit g' 0 = !outBit g 0 ∧ ∀ b, outBit g' (b + 1) = outBit g (b + 1)) ∧
    (∀ (g : Nat → Word) (b : Nat), outBit g (b + 1) = true ↔ protoBit g (b + 1) ≠ protoBit g b)

/-- R102, R101: `W` words make `ceil(26*W/8)` bytes; `4*N` words make `13*N` bytes and the pad bits do not occur; the
bytes are the closed form of R100. -/
def Obligations.PackedLengthAndNoPadForWholePackets : Prop :=
  (∀ (pad : Nat → Bool) (ws : List Word), (packDifferential pad ws).length = (26 * ws.length + 7) / 8) ∧
    (∀ (pad : Nat → Bool) (ws : List Word) (n : Nat), ws.length = 4 * n →
      packDifferential pad ws = (List.range (13 * n)).map (outByte fun i => ws.getD i 0))

/-- R104 (e): the bytes of a shorter sequence of packets are the beginning of the bytes of a longer one. -/
def Obligations.PackedPassesExtend : Prop :=
  ∀ (pad : Nat → Bool) (ws : List Word) (n₁ n₂ : Nat), n₁ ≤ n₂ → ws.length = 4 * n₂ →
    (packDifferential pad ws).take (13 * n₁) = packDifferential pad (ws.take (4 * n₁))

/-- R104 (f): the 13 bytes of packet `k` depend on its four words and on bit 6 of the word before them. -/
def Obligations.PacketBytesDependOnThePacketAndOneBit : Prop :=
  ∀ (g g' : Nat → Word) (k : Nat), (∀ i, i < 4 → g (4 * k + i) = g' (4 * k + i)) →
    (k ≠ 0 → (g (4 * k - 1)).getLsbD 6 = (g' (4 * k - 1)).getLsbD 6) →
    ∀ j, j < 13 → outByte g (13 * k + j) = outByte g' (13 * k + j)

/-- R54, R35 (c), R121: output bit `b` is bit `7 - (b mod 8)` of byte `b div 8`, and belongs to position
`31 - (b mod 26)` of word `b div 26`. -/
def Obligations.OutputBitsLieMostSignificantFirst : Prop :=
  ∀ (s : State) (g : Nat → Word) (n : Nat), (∀ j, j < 13 * n → s.out.read j = some (outByte g j)) →
    ∀ b, b < 104 * n →
      outBitAt s b = some ((g (b / 26)).getLsbD (31 - b % 26) ^^
        (if b = 0 then false else (g ((b - 1) / 26)).getLsbD (31 - (b - 1) % 26)))

/-! ## Sequencing (43_sequencer_host.md) -/

/-- R114: `FINISH` sets `DONE` and clears `BUSY` and writes nothing else of the machine; it is part of the `PACK.BIT`
step that packs bit 6 of the last word, which in a reachable state also completes the last output byte. -/
def Obligations.FinishSetsDoneAndClearsBusy : Prop :=
  (∀ s : State, ∃ t, exec .finish s = .next t ∧ t.phase = .idle ∧ t.done = true ∧ t.busy = false ∧
      t.status = 0x0002#16 ∧ t.doneOutput = true ∧ t = { s with phase := t.phase, done := t.done }) ∧
    (∀ (lo : BitVec 2) (s t : State), s.pos = 6#5 → s.widx.toNat + 1 = 4 * s.pktCount.toNat →
      exec (.packBit lo) s = .next t → t.phase = .idle ∧ t.done = true ∧ t.status = 0x0002#16) ∧
    (∀ (lo : BitVec 2) (s : State), Inv s → s.phase = .pack → s.pos = 6#5 → s.widx.toNat + 1 = 4 * s.pktCount.toNat →
      ∃ t, exec (.packBit lo) s = .next t ∧ t.phase = .idle ∧ t.done = true ∧
        t.out.read (13 * s.pktCount.toNat - 1) = some t.acc ∧ t.optr.toNat = 13 * s.pktCount.toNat ∧ t.nbits = 0#3 ∧
        t.widx.toNat = 4 * s.pktCount.toNat ∧ t.pos = 31#5)

/-- R111: `START` is ignored while the core is busy, refused when L-COUNT is broken (R127), and otherwise makes the
eleven writes and leaves the rest, whatever the reserved bits of the value written. -/
def Obligations.StartBeginsIgnoresOrRefuses : Prop :=
  (∀ v : BitVec 16, v.getLsbD 0 = true → ∃ rsv, decode (.ctrl v) = .ok (.start rsv)) ∧
  ∀ (rsv : BitVec 15) (s : State),
    (s.phase ≠ .idle → exec (.start rsv) s = .next s) ∧
      (s.phase = .idle → ¬ LCount s → exec (.start rsv) s = .refused .badPacketCount) ∧
      (s.phase = .idle → LCount s →
        ∃ t, exec (.start rsv) s = .next t ∧ PackerFresh t ∧ t.done = false ∧ t.phase = .encode ∧ t.blk = 0#10 ∧
          t.seg = 0#4 ∧ t.mptr = 0#10 ∧ t.status = 0x0001#16 ∧
          t = { s with done := t.done, blk := t.blk, seg := t.seg, mptr := t.mptr, widx := t.widx, pos := t.pos,
                       lastBit := t.lastBit, acc := t.acc, nbits := t.nbits, optr := t.optr, phase := t.phase })

/-- R58, R113: in `IDLE` the core takes no step; nothing changes. That the step of an idle core answers the same state
is the model's form of it (entry 5). -/
def Obligations.IdleCoreChangesNothing : Prop :=
  (∀ (lo : BitVec 2) (s : State), exec (.noStep lo) s = .next s) ∧
    (∀ s : State, s.phase = .idle → s.turns = [] → step s = .next s)

/-- R59 (c): the reserved phase is refused. -/
def Obligations.ReservedPhaseIsRefused : Prop :=
  (∀ (lo : BitVec 2) (s : State), exec (.reserved lo) s = .refused .reservedPhase) ∧
    (∀ s : State, s.phase = .reserved → s.turns = [] → step s = .refused .reservedPhase)

/-- R58, R113: a step of the core is the operation its selector decodes to; a host's write to `CTRL` is the command the
value decodes to (R15) and does nothing when it decodes to none; a turn by name is that operation (entry 4). The turn is
taken off the list first (entry 3). -/
def Obligations.StepRunsTheDecodedOperation : Prop :=
  (∀ (s : State) (i : Instr), s.turns = [] → decode (.seq s.sel) = .ok i → step s = exec i s) ∧
    (∀ (s : State) (ts : List Turn) (i : Instr), s.turns = .core :: ts → decode (.seq s.sel) = .ok i →
      step s = exec i { s with turns := ts }) ∧
    (∀ (s : State) (ts : List Turn) (v : BitVec 16) (i : Instr), s.turns = .host (.writeReg .ctrl v) :: ts →
      decode (.ctrl v) = .ok i → step s = exec i { s with turns := ts }) ∧
    (∀ (s : State) (ts : List Turn) (v : BitVec 16) (r : Reject), s.turns = .host (.writeReg .ctrl v) :: ts →
      decode (.ctrl v) = .error r → step s = .next { s with turns := ts }) ∧
    (∀ (s : State) (ts : List Turn) (i : Instr), s.turns = .named i :: ts → step s = exec i { s with turns := ts })

/-- R58: which operation the selector of a state names: by `PHASE` and, in `ENCODE`, the block kind `BLK mod 4`. -/
def Obligations.SelectorNamesTheBlockKindsOperation : Prop :=
  ∀ s : State,
    (s.phase = .idle → ∃ lo, decode (.seq s.sel) = .ok (.noStep lo)) ∧
      (s.phase = .encode →
        decode (.seq s.sel) =
          .ok (match kindOf s.blk.toNat with | .pi => .encPi | .control => .encCtrl | .charC => .encChc | .charD => .encChd)) ∧
      (s.phase = .pack → ∃ lo, decode (.seq s.sel) = .ok (.packBit lo)) ∧
      (s.phase = .reserved → ∃ lo, decode (.seq s.sel) = .ok (.reserved lo))

/-- R18: the only writers of `PHASE`, in runs of the two agents: an accepted `START`, the last block word, the last
bit, and reset. -/
def Obligations.PhaseChangesOnlyAtItsFourPlaces : Prop :=
  ∀ s t : State, (∀ u ∈ s.turns, u.isHardware = true) → step s = .next t →
    t.phase = s.phase ∨
      (s.phase = .idle ∧ t.phase = .encode ∧ LCount s ∧
        ∃ v ts, s.turns = .host (.writeReg .ctrl v) :: ts ∧ v.getLsbD 0 = true) ∨
      (s.phase = .encode ∧ t.phase = .pack ∧ s.blk.toNat + 1 = 4 * s.pktCount.toNat) ∨
      (s.phase = .pack ∧ t.phase = .idle ∧ t.done = true ∧ s.pos = 6#5 ∧ s.widx.toNat + 1 = 4 * s.pktCount.toNat) ∨
      (t.phase = .idle ∧ ∃ ts, s.turns = .host .reset :: ts)

/-! ## The host (43_sequencer_host.md R118, 10_state.md R11, 20_memory.md R38) -/

/-- R11 to R14, R38: while the host owns the core a register write stores the value's low bits in registers 0 to 2; while
the core is busy it changes nothing; `STATUS` and `OUT_LEN` ignore writes at any time. -/
def Obligations.RegisterWritesFollowOwnership : Prop :=
  ∀ (s : State) (ts : List Turn) (r : HostReg) (v : BitVec 16), s.turns = .host (.writeReg r v) :: ts → r ≠ .ctrl →
    (s.phase ≠ .idle → step s = .next { s with turns := ts }) ∧
      (s.phase = .idle →
        step s = .next (match r with
          | .piCode => { s with turns := ts, piCode := v }
          | .piCheck => { s with turns := ts, piCheck := BitVec.ofNat 10 v.toNat }
          | .pktCount => { s with turns := ts, pktCount := BitVec.ofNat 8 v.toNat }
          | .ctrl => s
          | .status => { s with turns := ts }
          | .outLen => { s with turns := ts }))

/-- R11, R15 to R17, R38: what a register read gives back, zero-extended to 16 bits; it changes nothing of the machine.
`OUT_LEN` is unspecified while the core is busy: some 12-bit value. -/
def Obligations.RegisterReadsGiveTheCurrentValue : Prop :=
  ∀ (s : State) (ts : List Turn) (r : HostReg), s.turns = .host (.readReg r) :: ts →
    ∃ (t : State) (x : BitVec 16), step s = .next t ∧ t.answer = some (.reg x) ∧
      t = { s with turns := ts, answer := t.answer, draws := t.draws } ∧
      (match r with
        | .piCode => x = s.piCode
        | .piCheck => x.toNat = s.piCheck.toNat
        | .pktCount => x.toNat = s.pktCount.toNat
        | .ctrl => x = 0#16
        | .status => x.toNat = (if s.phase ≠ .idle then 1 else 0) + (if s.done then 2 else 0)
        | .outLen => x.toNat < 4096 ∧ (s.phase = .idle → x.toNat = s.optr.toNat))

/-- R38, R118: `MSG` is written while the host owns it and keeps its value while the core does; a read gives the current
value at any time (a free value if nothing has written the cell since reset). -/
def Obligations.MessageAccessesFollowOwnership : Prop :=
  (∀ (s : State) (ts : List Turn) (a : Nat) (b : Byte), s.turns = .host (.writeMsg a b) :: ts → a < s.cfg.msgSize →
    ∃ t, step s = .next t ∧ t = { s with turns := ts, msg := t.msg } ∧
      (s.phase ≠ .idle → t.msg = s.msg) ∧
      (s.phase = .idle → t.msg.read a = some b ∧ ∀ a', a' ≠ a → t.msg.read a' = s.msg.read a')) ∧
    (∀ (s : State) (ts : List Turn) (a : Nat), s.turns = .host (.readMsg a) :: ts → a < s.cfg.msgSize →
      ∃ t, step s = .next t ∧ t = { s with turns := ts, answer := t.answer, draws := t.draws } ∧
        t.answer = some (.byte (msgByte s 0 a)))

/-- R38, R118: the host's writes of `GRP` and `OUT` change nothing at any time; its reads change nothing of the machine
and, while the host owns the core, give the cell's value if one has been written. -/
def Obligations.OutputBuffersAreReadOnlyToTheHost : Prop :=
  (∀ (s : State) (ts : List Turn) (a : Nat) (w : Word), s.turns = .host (.writeGrp a w) :: ts → a < s.cfg.grpSize →
    step s = .next { s with turns := ts }) ∧
    (∀ (s : State) (ts : List Turn) (a : Nat) (b : Byte), s.turns = .host (.writeOut a b) :: ts → a < s.cfg.outSize →
      step s = .next { s with turns := ts }) ∧
    (∀ (s : State) (ts : List Turn) (a : Nat), s.turns = .host (.readGrp a) :: ts → a < s.cfg.grpSize →
      ∃ t x, step s = .next t ∧ t = { s with turns := ts, answer := some (.word x), draws := t.draws } ∧
        (s.phase = .idle → ∀ w, s.grp.read a = some w → x = w)) ∧
    (∀ (s : State) (ts : List Turn) (a : Nat), s.turns = .host (.readOut a) :: ts → a < s.cfg.outSize →
      ∃ t x, step s = .next t ∧ t = { s with turns := ts, answer := some (.byte x), draws := t.draws } ∧
        (s.phase = .idle → ∀ b, s.out.read a = some b → x = b))

/-- R140, R27, R129 (a): reset gives every register its reset value and leaves no buffer cell specified, whatever was
happening. That the parameters, the waiting turns, the last answer and the count of free values stay is the model's
choice (entry 8). -/
def Obligations.ResetMoveGivesTheResetState : Prop :=
  ∀ (s : State) (ts : List Turn), s.turns = .host .reset :: ts →
    ∃ t, step s = .next t ∧ t.piCode = 0x0000#16 ∧ t.piCheck = 0x000#10 ∧ t.pktCount = 0x00#8 ∧ t.done = false ∧
      t.phase = .idle ∧ t.blk = 0#10 ∧ t.mptr = 0#10 ∧ t.seg = 0#4 ∧ PackerFresh t ∧
      (∀ a, t.msg.read a = none ∧ t.grp.read a = none ∧ t.out.read a = none) ∧ t.doneOutput = false ∧
      t.status = 0#16 ∧ t.cfg = s.cfg ∧ t.turns = ts ∧ t.answer = s.answer ∧ t.draws = s.draws

/-- R27, R140, R141: the machine right after reset. -/
def Obligations.ResetStateHasTheTabledValues : Prop :=
  State.reset.piCode = 0x0000#16 ∧ State.reset.piCheck = 0x000#10 ∧ State.reset.pktCount = 0x00#8 ∧
    State.reset.done = false ∧ State.reset.phase = .idle ∧ State.reset.blk = 0#10 ∧ State.reset.mptr = 0#10 ∧
    State.reset.seg = 0#4 ∧ PackerFresh State.reset ∧ State.reset.status = 0#16 ∧
    ∀ a, State.reset.msg.read a = none ∧ State.reset.grp.read a = none ∧ State.reset.out.read a = none

/-- R113, R38: while the core is busy, a host move other than reset changes nothing of the machine: only what it gives
back, and the count of free values. -/
def Obligations.HostMovesWhileBusyChangeNoMachineState : Prop :=
  ∀ (s t : State) (m : HostMove) (ts : List Turn), s.phase ≠ .idle → s.turns = .host m :: ts → m ≠ .reset →
    step s = .next t → t = { s with turns := ts, answer := t.answer, draws := t.draws }

/-- R42: the registers and the message a pass reads cannot change while the core is busy, but by reset, and the ROMs
never change; while the core is idle a host write of a register or of the message takes effect. -/
def Obligations.LaunchDataIsFixedWhileBusy : Prop :=
  (∀ s t : State, s.phase ≠ .idle → (∀ ts, s.turns ≠ .host .reset :: ts) → step s = .next t →
    hostOwned t = hostOwned s) ∧
    (∀ s t : State, step s = .next t → t.cfg = s.cfg) ∧
    (∀ (s : State) (ts : List Turn) (v : BitVec 16), s.phase = .idle →
      (s.turns = .host (.writeReg .piCode v) :: ts → ∃ t, step s = .next t ∧ t.piCode = v) ∧
        (s.turns = .host (.writeReg .piCheck v) :: ts → ∃ t, step s = .next t ∧ t.piCheck = v.extractLsb' 0 10) ∧
        (s.turns = .host (.writeReg .pktCount v) :: ts → ∃ t, step s = .next t ∧ t.pktCount = v.extractLsb' 0 8)) ∧
    (∀ (s : State) (ts : List Turn) (a : Nat) (b : Byte), s.phase = .idle → s.turns = .host (.writeMsg a b) :: ts →
      a < s.cfg.msgSize → ∃ t, step s = .next t ∧ t.msg.read a = some b)

/-- R118, R30, R127: a host move completes, but for a `START` that breaks L-COUNT, and for a cell that does not exist
(entries 7 and 16). -/
def Obligations.HostMovesStopOnlyOnBadCountOrMissingCell : Prop :=
  ∀ (s : State) (m : HostMove) (ts : List Turn), s.turns = .host m :: ts →
    (∃ t, step s = .next t) ∨
      (step s = .refused .badPacketCount ∧ s.phase = .idle ∧ ¬ LCount s ∧
        ∃ v, m = .writeReg .ctrl v ∧ v.getLsbD 0 = true) ∨
      (∃ a, step s = .fault (.noSuchCell .msg a) ∧ s.cfg.msgSize ≤ a ∧ (m = .readMsg a ∨ ∃ b, m = .writeMsg a b)) ∨
      (∃ a, step s = .fault (.noSuchCell .grp a) ∧ s.cfg.grpSize ≤ a ∧ (m = .readGrp a ∨ ∃ w, m = .writeGrp a w)) ∨
      (∃ a, step s = .fault (.noSuchCell .out a) ∧ s.cfg.outSize ≤ a ∧ (m = .readOut a ∨ ∃ b, m = .writeOut a b))

/-- R30: an operation whose cell does not exist stops with the model's fault, the first missing cell in the order of its
accesses (entry 7). `PACK.WORD` stops as the first of its 26 `PACK.BIT` steps that stops; from `POS = 31` that is the
first byte of `OUT` it completes and that does not exist. No launch reaches such a state
(`CoreNeverStopsInAnInvariantState`). -/
def Obligations.OperationsStopOnMissingCells : Prop :=
  (∀ s : State, s.cfg.grpSize ≤ s.blk.toNat →
    exec .encPi s = .fault (.noSuchCell .grp s.blk.toNat) ∧ exec .encCtrl s = .fault (.noSuchCell .grp s.blk.toNat)) ∧
    (∀ s : State, s.cfg.msgSize ≤ s.mptr.toNat →
      exec .encChc s = .fault (.noSuchCell .msg s.mptr.toNat) ∧
        exec .encChd s = .fault (.noSuchCell .msg s.mptr.toNat)) ∧
    (∀ s : State, s.mptr.toNat < s.cfg.msgSize → s.cfg.msgSize ≤ s.mptr.toNat + 1 →
      exec .encChc s = .fault (.noSuchCell .msg (s.mptr.toNat + 1)) ∧
        exec .encChd s = .fault (.noSuchCell .msg (s.mptr.toNat + 1))) ∧
    (∀ s : State, s.mptr.toNat + 1 < s.cfg.msgSize → s.cfg.grpSize ≤ s.blk.toNat →
      exec .encChc s = .fault (.noSuchCell .grp s.blk.toNat) ∧
        exec .encChd s = .fault (.noSuchCell .grp s.blk.toNat)) ∧
    (∀ (lo : BitVec 2) (s : State), s.cfg.grpSize ≤ s.widx.toNat →
      exec (.packBit lo) s = .fault (.noSuchCell .grp s.widx.toNat) ∧
        exec .packWord s = .fault (.noSuchCell .grp s.widx.toNat)) ∧
    (∀ (lo : BitVec 2) (s : State), s.widx.toNat < s.cfg.grpSize → s.nbits = 7#3 → s.cfg.outSize ≤ s.optr.toNat →
      exec (.packBit lo) s = .fault (.noSuchCell .out s.optr.toNat)) ∧
    (∀ (n : Nat) (s u : State) (f : Fault), n < 26 →
      Nat.repeat (fun r => thenDo r (exec (.packBit 0))) n (.next s) = .next u → exec (.packBit 0) u = .fault f →
      exec .packWord s = .fault f) ∧
    (∀ s : State, s.cfg.wf = true → s.pos = 31#5 → s.widx.toNat < s.cfg.grpSize →
      s.cfg.outSize < s.optr.toNat + (s.nbits.toNat + 26) / 8 →
      exec .packWord s = .fault (.noSuchCell .out (max s.optr.toNat s.cfg.outSize)))

/-! ## Whole-machine rules -/

/-- R10, R118: no step changes the parameters. -/
def Obligations.ParametersNeverChange : Prop :=
  ∀ s t : State, step s = .next t → t.cfg = s.cfg

/-- Every step, by whatever turn, keeps the three buffers in canonical form and inside their spaces (R30). -/
def Obligations.StepKeepsBuffersCanonical : Prop :=
  ∀ s t : State, BuffersWf s → step s = .next t → BuffersWf t

/-- R28: the invariant of reachable states holds at reset. -/
def Obligations.ResetMeetsTheInvariant : Prop :=
  Inv State.reset

/-- R28: every step of the two agents keeps the invariant of reachable states. -/
def Obligations.StepKeepsTheInvariant : Prop :=
  ∀ s t : State, Inv s → step s = .next t → Inv t

/-- R125, R21, R106: in every state of the invariant the core's step neither faults nor refuses. -/
def Obligations.CoreNeverStopsInAnInvariantState : Prop :=
  ∀ s : State, Inv s → (s.turns = [] ∨ ∃ ts, s.turns = .core :: ts) → ∃ t, step s = .next t

/-- R28 (b), R86, R113: every step of a busy core's machine but reset, the core's or the host's, keeps the block words
already produced; the core's step in `ENCODE` adds the next, and the last one leaves the packer its words with nothing
packed. -/
def Obligations.EncoderStepKeepsTheProducedWords : Prop :=
  ∀ (msg : Nat → Byte) (s t : State), Inv s → s.phase ≠ .idle → (∀ ts, s.turns ≠ .host .reset :: ts) →
    GroupsInv msg s → step s = .next t →
    GroupsInv msg t ∧
      t.blk.toNat = s.blk.toNat + (if s.phase = .encode ∧ s.coreMoves = true then 1 else 0) ∧
      (s.phase = .encode → t.phase = .pack → OutInv (blockAt t.cfg t.piCode t.piCheck msg) t ∧ packedBits t = 0)

/-- R28 (c), R100, R113: in `PACK` every step but reset, the core's or the host's, keeps the bytes already packed; the
core's step adds the next bit. -/
def Obligations.PackerStepKeepsThePackedBytes : Prop :=
  ∀ (g : Nat → Word) (s t : State), Inv s → s.phase = .pack → (∀ ts, s.turns ≠ .host .reset :: ts) → OutInv g s →
    step s = .next t →
    OutInv g t ∧ packedBits t = packedBits s + (if s.coreMoves = true then 1 else 0)

/-- R113, R131: a busy core left to itself reaches `FINISH` after exactly the steps that are left of the `108*PKT_COUNT`
of a pass, and is busy before each of them; no message cell need have been written. -/
def Obligations.BusyCoreReachesFinish : Prop :=
  ∀ s : State, Inv s → s.phase ≠ .idle → s.turns = [] →
    (∀ k, k < stepsLeft s → ∃ u, Host.Core.run Sys2Proof.core k s = .next u ∧ u.phase ≠ .idle) ∧
    ∃ t, Host.Core.run Sys2Proof.core (stepsLeft s) s = .next t ∧ t.phase = .idle ∧ t.done = true ∧
      t.optr.toNat = 13 * s.pktCount.toNat

/-- R116, R115, R86, R100, R44: a launch that meets the premises, run for the host's `START` and `108*PKT_COUNT` core
steps, ends with `GRP` and `OUT` in the spec's closed form, every cell beyond them as it was, and the registers as R28
(d) says; whatever the working registers and the buffers held before. -/
def Obligations.PassComputesTheClosedForm : Prop :=
  ∀ (s : State) (v : BitVec 16) (msg : Nat → Byte) (pad : Nat → Bool), Launch s → v.getLsbD 0 = true →
    s.turns = [.host (.writeReg .ctrl v)] → (∀ a, a < 4 * s.pktCount.toNat → s.msg.read a = some (msg a)) →
    let n := s.pktCount.toNat
    let g := blockAt s.cfg s.piCode s.piCheck msg
    ∃ t, Host.Core.run Sys2Proof.core (1 + 108 * n) s = .next t ∧
      t.phase = .idle ∧ t.done = true ∧
      (∀ i, t.grp.read i = if i < 4 * n then some (g i) else s.grp.read i) ∧
      (∀ j, t.out.read j = if j < 13 * n then some (outByte g j) else s.out.read j) ∧
      (List.range (13 * n)).map t.out.read =
        (packDifferential pad (encodeGroups s.cfg s.piCode s.piCheck msg n)).map some ∧
      FinishedInv n t ∧ t.seg.toNat = n % 16 ∧ t.lastBit = protoBit g (104 * n - 1) ∧
      hostOwned t = hostOwned s ∧ t.cfg = s.cfg ∧ t.turns = [] ∧ t.draws = s.draws

/-- R116, R117: the result of a pass does not depend on anything left by earlier passes: two launches with the same
parameters, registers and message cells end with the same `GRP`, `OUT` and `OUT_LEN`. -/
def Obligations.PassForgetsEarlierPasses : Prop :=
  ∀ (s s' : State) (v v' : BitVec 16), Launch s → Launch s' → v.getLsbD 0 = true → v'.getLsbD 0 = true →
    s.turns = [.host (.writeReg .ctrl v)] → s'.turns = [.host (.writeReg .ctrl v')] →
    s.cfg = s'.cfg → s.piCode = s'.piCode → s.piCheck = s'.piCheck → s.pktCount = s'.pktCount →
    (∀ a, a < 4 * s.pktCount.toNat → s.msg.read a = s'.msg.read a) →
    ∃ t t', Host.Core.run Sys2Proof.core (1 + 108 * s.pktCount.toNat) s = .next t ∧
      Host.Core.run Sys2Proof.core (1 + 108 * s'.pktCount.toNat) s' = .next t' ∧
      (∀ i, i < 4 * s.pktCount.toNat → t.grp.read i = t'.grp.read i) ∧
      (∀ j, j < 13 * s.pktCount.toNat → t.out.read j = t'.out.read j) ∧ t.optr = t'.optr

/-- R113, R116, R115, R42: the result of a pass does not depend on the interleaving. Whatever host moves, other than
reset and accesses to cells that do not exist (entry 16), stand anywhere between the core steps of the pass, it ends with
the same `GRP`, `OUT` and registers. The turns `us` listed after the host's `START` are those moves and core steps: all
`108*PKT_COUNT` of the pass, the last one ending `us`, with any turns `rest` after it, or fewer with nothing listed after
them, where the core then moves alone (entry 3). -/
def Obligations.PassIsTheSameUnderAnyInterleaving : Prop :=
  ∀ (s : State) (v : BitVec 16) (us rest : List Turn) (msg : Nat → Byte), Launch s → v.getLsbD 0 = true →
    s.turns = .host (.writeReg .ctrl v) :: (us ++ rest) → (∀ u ∈ us, u.mayJoinPass s.cfg = true) →
    (us.count .core < 108 * s.pktCount.toNat ∧ rest = [] ∨
      us.count .core = 108 * s.pktCount.toNat ∧ us.getLast? = some .core) →
    (∀ a, a < 4 * s.pktCount.toNat → s.msg.read a = some (msg a)) →
    let n := s.pktCount.toNat
    let g := blockAt s.cfg s.piCode s.piCheck msg
    ∃ t, Host.Core.run Sys2Proof.core (1 + 108 * n + (us.length - us.count .core)) s = .next t ∧
      t.phase = .idle ∧ t.done = true ∧
      (∀ i, t.grp.read i = if i < 4 * n then some (g i) else s.grp.read i) ∧
      (∀ j, t.out.read j = if j < 13 * n then some (outByte g j) else s.out.read j) ∧
      FinishedInv n t ∧ t.seg.toNat = n % 16 ∧ t.lastBit = protoBit g (104 * n - 1) ∧
      hostOwned t = hostOwned s ∧ t.cfg = s.cfg ∧ t.turns = rest
end

