-- ==== Sys2Proof/Laws/Memory.lean ====
section
/-! SUPPORT. The laws of the buffers: a read after a write, the canonical form, and that canonical buffers with the same
cells are the same data. -/

namespace Sys2Proof.Machine

variable {w : Nat}

@[simp] theorem Memory.read_nil (a : Nat) : Memory.read ([] : Memory w) a = none := rfl

@[simp] theorem Memory.read_write_same (m : Memory w) (a : Nat) (v : BitVec w) : (Memory.write m a v).read a = some v := by
  induction m with
  | nil => simp [Memory.write, Memory.read]
  | cons c m ih =>
    unfold Memory.write
    split
    · simp [Memory.read]
    · split
      · simp [Memory.read]
      · next h => simp [Memory.read, Ne.symm h, ih]

theorem Memory.read_write_other (m : Memory w) {a b : Nat} (v : BitVec w) (h : b ≠ a) :
    (Memory.write m a v).read b = m.read b := by
  induction m with
  | nil => simp [Memory.write, Memory.read, Ne.symm h]
  | cons c m ih =>
    unfold Memory.write
    split
    · simp [Memory.read, Ne.symm h]
    · split
      · next hac => subst hac; simp [Memory.read, Ne.symm h]
      · simp [Memory.read, ih]

theorem Memory.read_write (m : Memory w) (a b : Nat) (v : BitVec w) :
    (Memory.write m a v).read b = if b = a then some v else m.read b := by
  split
  · next h => subst h; simp
  · next h => exact Memory.read_write_other m v h

theorem Memory.wfFrom_write (size : Nat) (a : Nat) (v : BitVec w) (ha : a < size) :
    ∀ (m : Memory w) (lo : Nat), lo ≤ a → m.wfFrom size lo = true → (m.write a v).wfFrom size lo = true := by
  intro m
  induction m with
  | nil => intro lo hlo _; simp [Memory.write, Memory.wfFrom, hlo, ha]
  | cons c m ih =>
    intro lo hlo h
    simp only [Memory.wfFrom, Bool.and_eq_true, decide_eq_true_eq] at h
    unfold Memory.write
    split
    · simp only [Memory.wfFrom, Bool.and_eq_true, decide_eq_true_eq]
      exact ⟨⟨hlo, ha⟩, ⟨by omega, h.1.2⟩, h.2⟩
    · split
      · next hac => subst hac; simpa [Memory.wfFrom, hlo, ha] using h.2
      · simp only [Memory.wfFrom, Bool.and_eq_true, decide_eq_true_eq]
        exact ⟨h.1, ih (c.1 + 1) (by omega) h.2⟩

/-- A write inside the space keeps the canonical form. -/
theorem Memory.wf_write {size a : Nat} {m : Memory w} (v : BitVec w) (ha : a < size) (h : m.wf size = true) :
    (m.write a v).wf size = true :=
  Memory.wfFrom_write size a v ha m 0 (Nat.zero_le a) h

@[simp] theorem Memory.wf_nil (size : Nat) : Memory.wf size ([] : Memory w) = true := rfl

theorem Memory.read_eq_none_of_lt {size : Nat} :
    ∀ (m : Memory w) (lo a : Nat), m.wfFrom size lo = true → a < lo → m.read a = none := by
  intro m
  induction m with
  | nil => intros; rfl
  | cons c m ih =>
    intro lo a h ha
    simp only [Memory.wfFrom, Bool.and_eq_true, decide_eq_true_eq] at h
    have hc : ¬ c.1 = a := by omega
    simpa [Memory.read, hc] using ih (c.1 + 1) a h.2 (by omega)

theorem Memory.eq_of_wfFrom {size : Nat} :
    ∀ (m n : Memory w) (lo : Nat), m.wfFrom size lo = true → n.wfFrom size lo = true →
      (∀ a, m.read a = n.read a) → m = n := by
  intro m
  induction m with
  | nil =>
    intro n lo _ _ h
    cases n with
    | nil => rfl
    | cons d n => have := h d.1; simp [Memory.read] at this
  | cons c m ih =>
    intro n lo hm hn h
    cases n with
    | nil => have := h c.1; simp [Memory.read] at this
    | cons d n =>
      simp only [Memory.wfFrom, Bool.and_eq_true, decide_eq_true_eq] at hm hn
      have hcd : c.1 = d.1 := by
        by_contra hne
        rcases Nat.lt_or_gt_of_ne hne with hlt | hgt
        · have h1 := h c.1
          have h2 := Memory.read_eq_none_of_lt n (d.1 + 1) c.1 hn.2 (by omega)
          simp [Memory.read, Ne.symm hne, h2] at h1
        · have h1 := h d.1
          have h2 := Memory.read_eq_none_of_lt m (c.1 + 1) d.1 hm.2 (by omega)
          simp [Memory.read, hne, h2] at h1
      have hv : c.2 = d.2 := by
        have h1 := h c.1
        simpa [Memory.read, hcd] using h1
      have htail : m = n := by
        refine ih n (c.1 + 1) hm.2 (by rw [hcd]; exact hn.2) fun a => ?_
        by_cases ha : a = c.1
        · have h1 := Memory.read_eq_none_of_lt m (c.1 + 1) a hm.2 (by omega)
          have h2 := Memory.read_eq_none_of_lt n (d.1 + 1) a hn.2 (by omega)
          rw [h1, h2]
        · have h1 := h a
          have hc : ¬ c.1 = a := fun e => ha e.symm
          have hd : ¬ d.1 = a := fun e => ha (hcd.trans e).symm
          simpa [Memory.read, hc, hd] using h1
      rw [htail]
      exact congrArg (· :: n) (Prod.ext hcd hv)

/-- Canonical buffers with the same cells are the same data. -/
theorem Memory.eq_of_wf {size : Nat} {m n : Memory w} (hm : m.wf size = true) (hn : n.wf size = true)
    (h : ∀ a, m.read a = n.read a) : m = n :=
  Memory.eq_of_wfFrom m n 0 hm hn h

end Sys2Proof.Machine
end

