-- ==== Sys2Proof/Laws/State.lean ====
section
/-! SUPPORT. One lemma per field per update of the state (true by rfl), so that no proof unfolds a record update. -/

namespace Sys2Proof.Machine

/-! ### `advance` -/

@[simp] theorem advance_cfg (s : State) : (advance s).cfg = s.cfg := rfl
@[simp] theorem advance_piCode (s : State) : (advance s).piCode = s.piCode := rfl
@[simp] theorem advance_piCheck (s : State) : (advance s).piCheck = s.piCheck := rfl
@[simp] theorem advance_pktCount (s : State) : (advance s).pktCount = s.pktCount := rfl
@[simp] theorem advance_done (s : State) : (advance s).done = s.done := rfl
@[simp] theorem advance_phase (s : State) : (advance s).phase = if s.blk.toNat + 1 = 4 * s.pktCount.toNat then .pack else s.phase := rfl
@[simp] theorem advance_blk (s : State) : (advance s).blk = s.blk + 1 := rfl
@[simp] theorem advance_seg (s : State) : (advance s).seg = s.seg := rfl
@[simp] theorem advance_mptr (s : State) : (advance s).mptr = s.mptr := rfl
@[simp] theorem advance_widx (s : State) : (advance s).widx = s.widx := rfl
@[simp] theorem advance_pos (s : State) : (advance s).pos = s.pos := rfl
@[simp] theorem advance_lastBit (s : State) : (advance s).lastBit = s.lastBit := rfl
@[simp] theorem advance_acc (s : State) : (advance s).acc = s.acc := rfl
@[simp] theorem advance_nbits (s : State) : (advance s).nbits = s.nbits := rfl
@[simp] theorem advance_optr (s : State) : (advance s).optr = s.optr := rfl
@[simp] theorem advance_msg (s : State) : (advance s).msg = s.msg := rfl
@[simp] theorem advance_grp (s : State) : (advance s).grp = s.grp := rfl
@[simp] theorem advance_out (s : State) : (advance s).out = s.out := rfl
@[simp] theorem advance_turns (s : State) : (advance s).turns = s.turns := rfl
@[simp] theorem advance_answer (s : State) : (advance s).answer = s.answer := rfl
@[simp] theorem advance_draws (s : State) : (advance s).draws = s.draws := rfl

/-! ### `consumeChars` -/

@[simp] theorem consumeChars_cfg (s : State) : (consumeChars s).cfg = s.cfg := rfl
@[simp] theorem consumeChars_piCode (s : State) : (consumeChars s).piCode = s.piCode := rfl
@[simp] theorem consumeChars_piCheck (s : State) : (consumeChars s).piCheck = s.piCheck := rfl
@[simp] theorem consumeChars_pktCount (s : State) : (consumeChars s).pktCount = s.pktCount := rfl
@[simp] theorem consumeChars_done (s : State) : (consumeChars s).done = s.done := rfl
@[simp] theorem consumeChars_phase (s : State) : (consumeChars s).phase = s.phase := rfl
@[simp] theorem consumeChars_blk (s : State) : (consumeChars s).blk = s.blk := rfl
@[simp] theorem consumeChars_seg (s : State) : (consumeChars s).seg = s.seg := rfl
@[simp] theorem consumeChars_mptr (s : State) : (consumeChars s).mptr = s.mptr + 2 := rfl
@[simp] theorem consumeChars_widx (s : State) : (consumeChars s).widx = s.widx := rfl
@[simp] theorem consumeChars_pos (s : State) : (consumeChars s).pos = s.pos := rfl
@[simp] theorem consumeChars_lastBit (s : State) : (consumeChars s).lastBit = s.lastBit := rfl
@[simp] theorem consumeChars_acc (s : State) : (consumeChars s).acc = s.acc := rfl
@[simp] theorem consumeChars_nbits (s : State) : (consumeChars s).nbits = s.nbits := rfl
@[simp] theorem consumeChars_optr (s : State) : (consumeChars s).optr = s.optr := rfl
@[simp] theorem consumeChars_msg (s : State) : (consumeChars s).msg = s.msg := rfl
@[simp] theorem consumeChars_grp (s : State) : (consumeChars s).grp = s.grp := rfl
@[simp] theorem consumeChars_out (s : State) : (consumeChars s).out = s.out := rfl
@[simp] theorem consumeChars_turns (s : State) : (consumeChars s).turns = s.turns := rfl
@[simp] theorem consumeChars_answer (s : State) : (consumeChars s).answer = s.answer := rfl
@[simp] theorem consumeChars_draws (s : State) : (consumeChars s).draws = s.draws := rfl

/-! ### `nextSegment` -/

@[simp] theorem nextSegment_cfg (s : State) : (nextSegment s).cfg = s.cfg := rfl
@[simp] theorem nextSegment_piCode (s : State) : (nextSegment s).piCode = s.piCode := rfl
@[simp] theorem nextSegment_piCheck (s : State) : (nextSegment s).piCheck = s.piCheck := rfl
@[simp] theorem nextSegment_pktCount (s : State) : (nextSegment s).pktCount = s.pktCount := rfl
@[simp] theorem nextSegment_done (s : State) : (nextSegment s).done = s.done := rfl
@[simp] theorem nextSegment_phase (s : State) : (nextSegment s).phase = s.phase := rfl
@[simp] theorem nextSegment_blk (s : State) : (nextSegment s).blk = s.blk := rfl
@[simp] theorem nextSegment_seg (s : State) : (nextSegment s).seg = s.seg + 1 := rfl
@[simp] theorem nextSegment_mptr (s : State) : (nextSegment s).mptr = s.mptr := rfl
@[simp] theorem nextSegment_widx (s : State) : (nextSegment s).widx = s.widx := rfl
@[simp] theorem nextSegment_pos (s : State) : (nextSegment s).pos = s.pos := rfl
@[simp] theorem nextSegment_lastBit (s : State) : (nextSegment s).lastBit = s.lastBit := rfl
@[simp] theorem nextSegment_acc (s : State) : (nextSegment s).acc = s.acc := rfl
@[simp] theorem nextSegment_nbits (s : State) : (nextSegment s).nbits = s.nbits := rfl
@[simp] theorem nextSegment_optr (s : State) : (nextSegment s).optr = s.optr := rfl
@[simp] theorem nextSegment_msg (s : State) : (nextSegment s).msg = s.msg := rfl
@[simp] theorem nextSegment_grp (s : State) : (nextSegment s).grp = s.grp := rfl
@[simp] theorem nextSegment_out (s : State) : (nextSegment s).out = s.out := rfl
@[simp] theorem nextSegment_turns (s : State) : (nextSegment s).turns = s.turns := rfl
@[simp] theorem nextSegment_answer (s : State) : (nextSegment s).answer = s.answer := rfl
@[simp] theorem nextSegment_draws (s : State) : (nextSegment s).draws = s.draws := rfl

/-! ### `finishPass` -/

@[simp] theorem finishPass_cfg (s : State) : (finishPass s).cfg = s.cfg := rfl
@[simp] theorem finishPass_piCode (s : State) : (finishPass s).piCode = s.piCode := rfl
@[simp] theorem finishPass_piCheck (s : State) : (finishPass s).piCheck = s.piCheck := rfl
@[simp] theorem finishPass_pktCount (s : State) : (finishPass s).pktCount = s.pktCount := rfl
@[simp] theorem finishPass_done (s : State) : (finishPass s).done = true := rfl
@[simp] theorem finishPass_phase (s : State) : (finishPass s).phase = .idle := rfl
@[simp] theorem finishPass_blk (s : State) : (finishPass s).blk = s.blk := rfl
@[simp] theorem finishPass_seg (s : State) : (finishPass s).seg = s.seg := rfl
@[simp] theorem finishPass_mptr (s : State) : (finishPass s).mptr = s.mptr := rfl
@[simp] theorem finishPass_widx (s : State) : (finishPass s).widx = s.widx := rfl
@[simp] theorem finishPass_pos (s : State) : (finishPass s).pos = s.pos := rfl
@[simp] theorem finishPass_lastBit (s : State) : (finishPass s).lastBit = s.lastBit := rfl
@[simp] theorem finishPass_acc (s : State) : (finishPass s).acc = s.acc := rfl
@[simp] theorem finishPass_nbits (s : State) : (finishPass s).nbits = s.nbits := rfl
@[simp] theorem finishPass_optr (s : State) : (finishPass s).optr = s.optr := rfl
@[simp] theorem finishPass_msg (s : State) : (finishPass s).msg = s.msg := rfl
@[simp] theorem finishPass_grp (s : State) : (finishPass s).grp = s.grp := rfl
@[simp] theorem finishPass_out (s : State) : (finishPass s).out = s.out := rfl
@[simp] theorem finishPass_turns (s : State) : (finishPass s).turns = s.turns := rfl
@[simp] theorem finishPass_answer (s : State) : (finishPass s).answer = s.answer := rfl
@[simp] theorem finishPass_draws (s : State) : (finishPass s).draws = s.draws := rfl

/-! ### `beginPass` -/

@[simp] theorem beginPass_cfg (s : State) : (beginPass s).cfg = s.cfg := rfl
@[simp] theorem beginPass_piCode (s : State) : (beginPass s).piCode = s.piCode := rfl
@[simp] theorem beginPass_piCheck (s : State) : (beginPass s).piCheck = s.piCheck := rfl
@[simp] theorem beginPass_pktCount (s : State) : (beginPass s).pktCount = s.pktCount := rfl
@[simp] theorem beginPass_done (s : State) : (beginPass s).done = false := rfl
@[simp] theorem beginPass_phase (s : State) : (beginPass s).phase = .encode := rfl
@[simp] theorem beginPass_blk (s : State) : (beginPass s).blk = 0#10 := rfl
@[simp] theorem beginPass_seg (s : State) : (beginPass s).seg = 0#4 := rfl
@[simp] theorem beginPass_mptr (s : State) : (beginPass s).mptr = 0#10 := rfl
@[simp] theorem beginPass_widx (s : State) : (beginPass s).widx = 0#10 := rfl
@[simp] theorem beginPass_pos (s : State) : (beginPass s).pos = 31#5 := rfl
@[simp] theorem beginPass_lastBit (s : State) : (beginPass s).lastBit = false := rfl
@[simp] theorem beginPass_acc (s : State) : (beginPass s).acc = 0x00#8 := rfl
@[simp] theorem beginPass_nbits (s : State) : (beginPass s).nbits = 0#3 := rfl
@[simp] theorem beginPass_optr (s : State) : (beginPass s).optr = 0#12 := rfl
@[simp] theorem beginPass_msg (s : State) : (beginPass s).msg = s.msg := rfl
@[simp] theorem beginPass_grp (s : State) : (beginPass s).grp = s.grp := rfl
@[simp] theorem beginPass_out (s : State) : (beginPass s).out = s.out := rfl
@[simp] theorem beginPass_turns (s : State) : (beginPass s).turns = s.turns := rfl
@[simp] theorem beginPass_answer (s : State) : (beginPass s).answer = s.answer := rfl
@[simp] theorem beginPass_draws (s : State) : (beginPass s).draws = s.draws := rfl

/-! ### `giveAnswer` -/

@[simp] theorem giveAnswer_cfg (x : Answer) (s : State) : (giveAnswer x s).cfg = s.cfg := rfl
@[simp] theorem giveAnswer_piCode (x : Answer) (s : State) : (giveAnswer x s).piCode = s.piCode := rfl
@[simp] theorem giveAnswer_piCheck (x : Answer) (s : State) : (giveAnswer x s).piCheck = s.piCheck := rfl
@[simp] theorem giveAnswer_pktCount (x : Answer) (s : State) : (giveAnswer x s).pktCount = s.pktCount := rfl
@[simp] theorem giveAnswer_done (x : Answer) (s : State) : (giveAnswer x s).done = s.done := rfl
@[simp] theorem giveAnswer_phase (x : Answer) (s : State) : (giveAnswer x s).phase = s.phase := rfl
@[simp] theorem giveAnswer_blk (x : Answer) (s : State) : (giveAnswer x s).blk = s.blk := rfl
@[simp] theorem giveAnswer_seg (x : Answer) (s : State) : (giveAnswer x s).seg = s.seg := rfl
@[simp] theorem giveAnswer_mptr (x : Answer) (s : State) : (giveAnswer x s).mptr = s.mptr := rfl
@[simp] theorem giveAnswer_widx (x : Answer) (s : State) : (giveAnswer x s).widx = s.widx := rfl
@[simp] theorem giveAnswer_pos (x : Answer) (s : State) : (giveAnswer x s).pos = s.pos := rfl
@[simp] theorem giveAnswer_lastBit (x : Answer) (s : State) : (giveAnswer x s).lastBit = s.lastBit := rfl
@[simp] theorem giveAnswer_acc (x : Answer) (s : State) : (giveAnswer x s).acc = s.acc := rfl
@[simp] theorem giveAnswer_nbits (x : Answer) (s : State) : (giveAnswer x s).nbits = s.nbits := rfl
@[simp] theorem giveAnswer_optr (x : Answer) (s : State) : (giveAnswer x s).optr = s.optr := rfl
@[simp] theorem giveAnswer_msg (x : Answer) (s : State) : (giveAnswer x s).msg = s.msg := rfl
@[simp] theorem giveAnswer_grp (x : Answer) (s : State) : (giveAnswer x s).grp = s.grp := rfl
@[simp] theorem giveAnswer_out (x : Answer) (s : State) : (giveAnswer x s).out = s.out := rfl
@[simp] theorem giveAnswer_turns (x : Answer) (s : State) : (giveAnswer x s).turns = s.turns := rfl
@[simp] theorem giveAnswer_answer (x : Answer) (s : State) : (giveAnswer x s).answer = some x := rfl
@[simp] theorem giveAnswer_draws (x : Answer) (s : State) : (giveAnswer x s).draws = s.draws := rfl

/-! ### `draw` -/

@[simp] theorem draw_cfg (w : Nat) (s : State) : (draw w s).2.cfg = s.cfg := rfl
@[simp] theorem draw_piCode (w : Nat) (s : State) : (draw w s).2.piCode = s.piCode := rfl
@[simp] theorem draw_piCheck (w : Nat) (s : State) : (draw w s).2.piCheck = s.piCheck := rfl
@[simp] theorem draw_pktCount (w : Nat) (s : State) : (draw w s).2.pktCount = s.pktCount := rfl
@[simp] theorem draw_done (w : Nat) (s : State) : (draw w s).2.done = s.done := rfl
@[simp] theorem draw_phase (w : Nat) (s : State) : (draw w s).2.phase = s.phase := rfl
@[simp] theorem draw_blk (w : Nat) (s : State) : (draw w s).2.blk = s.blk := rfl
@[simp] theorem draw_seg (w : Nat) (s : State) : (draw w s).2.seg = s.seg := rfl
@[simp] theorem draw_mptr (w : Nat) (s : State) : (draw w s).2.mptr = s.mptr := rfl
@[simp] theorem draw_widx (w : Nat) (s : State) : (draw w s).2.widx = s.widx := rfl
@[simp] theorem draw_pos (w : Nat) (s : State) : (draw w s).2.pos = s.pos := rfl
@[simp] theorem draw_lastBit (w : Nat) (s : State) : (draw w s).2.lastBit = s.lastBit := rfl
@[simp] theorem draw_acc (w : Nat) (s : State) : (draw w s).2.acc = s.acc := rfl
@[simp] theorem draw_nbits (w : Nat) (s : State) : (draw w s).2.nbits = s.nbits := rfl
@[simp] theorem draw_optr (w : Nat) (s : State) : (draw w s).2.optr = s.optr := rfl
@[simp] theorem draw_msg (w : Nat) (s : State) : (draw w s).2.msg = s.msg := rfl
@[simp] theorem draw_grp (w : Nat) (s : State) : (draw w s).2.grp = s.grp := rfl
@[simp] theorem draw_out (w : Nat) (s : State) : (draw w s).2.out = s.out := rfl
@[simp] theorem draw_turns (w : Nat) (s : State) : (draw w s).2.turns = s.turns := rfl
@[simp] theorem draw_answer (w : Nat) (s : State) : (draw w s).2.answer = s.answer := rfl
@[simp] theorem draw_draws (w : Nat) (s : State) : (draw w s).2.draws = s.draws + 1 := rfl

/-! ### `resetMachine` -/

@[simp] theorem resetMachine_cfg (s : State) : (resetMachine s).cfg = s.cfg := rfl
@[simp] theorem resetMachine_piCode (s : State) : (resetMachine s).piCode = 0x0000#16 := rfl
@[simp] theorem resetMachine_piCheck (s : State) : (resetMachine s).piCheck = 0x000#10 := rfl
@[simp] theorem resetMachine_pktCount (s : State) : (resetMachine s).pktCount = 0x00#8 := rfl
@[simp] theorem resetMachine_done (s : State) : (resetMachine s).done = false := rfl
@[simp] theorem resetMachine_phase (s : State) : (resetMachine s).phase = .idle := rfl
@[simp] theorem resetMachine_blk (s : State) : (resetMachine s).blk = 0#10 := rfl
@[simp] theorem resetMachine_seg (s : State) : (resetMachine s).seg = 0#4 := rfl
@[simp] theorem resetMachine_mptr (s : State) : (resetMachine s).mptr = 0#10 := rfl
@[simp] theorem resetMachine_widx (s : State) : (resetMachine s).widx = 0#10 := rfl
@[simp] theorem resetMachine_pos (s : State) : (resetMachine s).pos = 31#5 := rfl
@[simp] theorem resetMachine_lastBit (s : State) : (resetMachine s).lastBit = false := rfl
@[simp] theorem resetMachine_acc (s : State) : (resetMachine s).acc = 0x00#8 := rfl
@[simp] theorem resetMachine_nbits (s : State) : (resetMachine s).nbits = 0#3 := rfl
@[simp] theorem resetMachine_optr (s : State) : (resetMachine s).optr = 0#12 := rfl
@[simp] theorem resetMachine_msg (s : State) : (resetMachine s).msg = [] := rfl
@[simp] theorem resetMachine_grp (s : State) : (resetMachine s).grp = [] := rfl
@[simp] theorem resetMachine_out (s : State) : (resetMachine s).out = [] := rfl
@[simp] theorem resetMachine_turns (s : State) : (resetMachine s).turns = s.turns := rfl
@[simp] theorem resetMachine_answer (s : State) : (resetMachine s).answer = s.answer := rfl
@[simp] theorem resetMachine_draws (s : State) : (resetMachine s).draws = s.draws := rfl

/-! ### `orDraw`: only the counter of free values can change -/

@[simp] theorem orDraw_cfg {w : Nat} (c : Option (BitVec w)) (s : State) : (orDraw c s).2.cfg = s.cfg := by
  cases c <;> rfl
@[simp] theorem orDraw_piCode {w : Nat} (c : Option (BitVec w)) (s : State) : (orDraw c s).2.piCode = s.piCode := by
  cases c <;> rfl
@[simp] theorem orDraw_piCheck {w : Nat} (c : Option (BitVec w)) (s : State) : (orDraw c s).2.piCheck = s.piCheck := by
  cases c <;> rfl
@[simp] theorem orDraw_pktCount {w : Nat} (c : Option (BitVec w)) (s : State) : (orDraw c s).2.pktCount = s.pktCount := by
  cases c <;> rfl
@[simp] theorem orDraw_done {w : Nat} (c : Option (BitVec w)) (s : State) : (orDraw c s).2.done = s.done := by
  cases c <;> rfl
@[simp] theorem orDraw_phase {w : Nat} (c : Option (BitVec w)) (s : State) : (orDraw c s).2.phase = s.phase := by
  cases c <;> rfl
@[simp] theorem orDraw_blk {w : Nat} (c : Option (BitVec w)) (s : State) : (orDraw c s).2.blk = s.blk := by
  cases c <;> rfl
@[simp] theorem orDraw_seg {w : Nat} (c : Option (BitVec w)) (s : State) : (orDraw c s).2.seg = s.seg := by
  cases c <;> rfl
@[simp] theorem orDraw_mptr {w : Nat} (c : Option (BitVec w)) (s : State) : (orDraw c s).2.mptr = s.mptr := by
  cases c <;> rfl
@[simp] theorem orDraw_widx {w : Nat} (c : Option (BitVec w)) (s : State) : (orDraw c s).2.widx = s.widx := by
  cases c <;> rfl
@[simp] theorem orDraw_pos {w : Nat} (c : Option (BitVec w)) (s : State) : (orDraw c s).2.pos = s.pos := by
  cases c <;> rfl
@[simp] theorem orDraw_lastBit {w : Nat} (c : Option (BitVec w)) (s : State) : (orDraw c s).2.lastBit = s.lastBit := by
  cases c <;> rfl
@[simp] theorem orDraw_acc {w : Nat} (c : Option (BitVec w)) (s : State) : (orDraw c s).2.acc = s.acc := by
  cases c <;> rfl
@[simp] theorem orDraw_nbits {w : Nat} (c : Option (BitVec w)) (s : State) : (orDraw c s).2.nbits = s.nbits := by
  cases c <;> rfl
@[simp] theorem orDraw_optr {w : Nat} (c : Option (BitVec w)) (s : State) : (orDraw c s).2.optr = s.optr := by
  cases c <;> rfl
@[simp] theorem orDraw_msg {w : Nat} (c : Option (BitVec w)) (s : State) : (orDraw c s).2.msg = s.msg := by
  cases c <;> rfl
@[simp] theorem orDraw_grp {w : Nat} (c : Option (BitVec w)) (s : State) : (orDraw c s).2.grp = s.grp := by
  cases c <;> rfl
@[simp] theorem orDraw_out {w : Nat} (c : Option (BitVec w)) (s : State) : (orDraw c s).2.out = s.out := by
  cases c <;> rfl
@[simp] theorem orDraw_turns {w : Nat} (c : Option (BitVec w)) (s : State) : (orDraw c s).2.turns = s.turns := by
  cases c <;> rfl
@[simp] theorem orDraw_answer {w : Nat} (c : Option (BitVec w)) (s : State) : (orDraw c s).2.answer = s.answer := by
  cases c <;> rfl

@[simp] theorem orDraw_some {w : Nat} (v : BitVec w) (s : State) : orDraw (some v) s = (v, s) := rfl

@[simp] theorem orDraw_value {w : Nat} (c : Option (BitVec w)) (s : State) :
    (orDraw c s).1 = c.getD (Config.freeValue w s.draws) := by
  cases c <;> rfl

@[simp] theorem orDraw_draws {w : Nat} (c : Option (BitVec w)) (s : State) :
    (orDraw c s).2.draws = s.draws + (if c.isNone then 1 else 0) := by
  cases c <;> rfl

@[simp] theorem draw_value (w : Nat) (s : State) : (draw w s).1 = Config.freeValue w s.draws := rfl

end Sys2Proof.Machine
end

