-- ==== Sys2Proof/Laws/Ops.lean ====
section
/-! SUPPORT. What each shared operation can do, said once: when it answers a next state, and which. -/

namespace Sys2Proof.Machine

/-! ### Sequencing the parts of a step -/

@[simp] theorem thenDo_next {α β : Type} (a : α) (f : α → Result β) : thenDo (.next a) f = f a := rfl

@[simp] theorem thenDo_fault {α β : Type} (e : Fault) (f : α → Result β) : thenDo (.fault e) f = .fault e := rfl

@[simp] theorem thenDo_refused {α β : Type} (e : Refusal) (f : α → Result β) : thenDo (.refused e) f = .refused e := rfl

/-- A sequence of two parts answers a next state exactly when both do. -/
theorem thenDo_eq_next {α β : Type} {r : Result α} {f : α → Result β} {b : β} :
    thenDo r f = .next b ↔ ∃ a, r = .next a ∧ f a = .next b := by
  cases r <;> simp [thenDo]

/-! ### Accesses to cells -/

theorem readMsg_of_lt {a : Nat} {s : State} (h : a < s.cfg.msgSize) : readMsg a s = .next (orDraw (s.msg.read a) s) := by
  simp [readMsg, h]

theorem readGrp_of_lt {a : Nat} {s : State} (h : a < s.cfg.grpSize) : readGrp a s = .next (orDraw (s.grp.read a) s) := by
  simp [readGrp, h]

theorem readOut_of_lt {a : Nat} {s : State} (h : a < s.cfg.outSize) : readOut a s = .next (orDraw (s.out.read a) s) := by
  simp [readOut, h]

theorem writeMsg_of_lt {a : Nat} {b : Byte} {s : State} (h : a < s.cfg.msgSize) :
    writeMsg a b s = .next { s with msg := s.msg.write a b } := by
  simp [writeMsg, h]

theorem writeGrp_of_lt {a : Nat} {x : Word} {s : State} (h : a < s.cfg.grpSize) :
    writeGrp a x s = .next { s with grp := s.grp.write a x } := by
  simp [writeGrp, h]

theorem writeOut_of_lt {a : Nat} {b : Byte} {s : State} (h : a < s.cfg.outSize) :
    writeOut a b s = .next { s with out := s.out.write a b } := by
  simp [writeOut, h]

theorem readMsg_eq_next {a : Nat} {s : State} {r : Byte × State} :
    readMsg a s = .next r ↔ a < s.cfg.msgSize ∧ r = orDraw (s.msg.read a) s := by
  unfold readMsg; split <;> simp_all [eq_comm]

theorem readGrp_eq_next {a : Nat} {s : State} {r : Word × State} :
    readGrp a s = .next r ↔ a < s.cfg.grpSize ∧ r = orDraw (s.grp.read a) s := by
  unfold readGrp; split <;> simp_all [eq_comm]

theorem readOut_eq_next {a : Nat} {s : State} {r : Byte × State} :
    readOut a s = .next r ↔ a < s.cfg.outSize ∧ r = orDraw (s.out.read a) s := by
  unfold readOut; split <;> simp_all [eq_comm]

theorem writeMsg_eq_next {a : Nat} {b : Byte} {s t : State} :
    writeMsg a b s = .next t ↔ a < s.cfg.msgSize ∧ t = { s with msg := s.msg.write a b } := by
  unfold writeMsg; split <;> simp_all [eq_comm]

theorem writeGrp_eq_next {a : Nat} {x : Word} {s t : State} :
    writeGrp a x s = .next t ↔ a < s.cfg.grpSize ∧ t = { s with grp := s.grp.write a x } := by
  unfold writeGrp; split <;> simp_all [eq_comm]

theorem writeOut_eq_next {a : Nat} {b : Byte} {s t : State} :
    writeOut a b s = .next t ↔ a < s.cfg.outSize ∧ t = { s with out := s.out.write a b } := by
  unfold writeOut; split <;> simp_all [eq_comm]

/-- A read of a cell in its two cases at once: only the counter of free values moves. -/
theorem orDraw_state {w : Nat} (c : Option (BitVec w)) (s : State) :
    (orDraw c s).2 = { s with draws := s.draws + (if c.isNone then 1 else 0) } := by
  cases c <;> rfl

/-- Two characters are read exactly when both cells exist. -/
theorem readChars_eq_next {s : State} {r : Byte × Byte × State} :
    readChars s = .next r ↔
      s.mptr.toNat + 1 < s.cfg.msgSize ∧
        r = ((orDraw (s.msg.read s.mptr.toNat) s).1,
          (orDraw (s.msg.read (s.mptr.toNat + 1)) (orDraw (s.msg.read s.mptr.toNat) s).2).1,
          (orDraw (s.msg.read (s.mptr.toNat + 1)) (orDraw (s.msg.read s.mptr.toNat) s).2).2) := by
  simp only [readChars, thenDo_eq_next, readMsg_eq_next]
  constructor
  · rintro ⟨p, ⟨_, rfl⟩, q, ⟨h2, rfl⟩, h3⟩
    simp at h2 h3
    exact ⟨h2, by simp [← h3]⟩
  · rintro ⟨h, rfl⟩
    exact ⟨_, ⟨by omega, rfl⟩, _, ⟨by simpa using h, rfl⟩, by simp⟩

/-! ### The operations of the encoder -/

/-- `ENC.PI` and `ENC.CTRL` in one: store a word at `BLK`, then advance. -/
theorem store_advance_eq_next {s t : State} {x : Word} :
    (thenDo (writeGrp s.blk.toNat x s) fun u => .next (advance u)) = Host.Outcome.next t ↔
      s.blk.toNat < s.cfg.grpSize ∧ t = advance { s with grp := s.grp.write s.blk.toNat x } := by
  simp only [thenDo_eq_next, writeGrp_eq_next]
  constructor
  · rintro ⟨u, ⟨h, rfl⟩, h2⟩
    exact ⟨h, by simpa [eq_comm] using h2⟩
  · rintro ⟨h, rfl⟩
    exact ⟨_, ⟨h, rfl⟩, rfl⟩

/-- Everything a character block step can do. -/
theorem encodeChars_eq_next {o : Offset} {s t : State} :
    encodeChars o s = .next t ↔
      s.mptr.toNat + 1 < s.cfg.msgSize ∧ s.blk.toNat < s.cfg.grpSize ∧
        t = advance (consumeChars { s with
          grp := s.grp.write s.blk.toNat (charWord s.cfg o (msgByte s 0 s.mptr.toNat)
            (msgByte s (drawsFor (s.msg.read s.mptr.toNat)) (s.mptr.toNat + 1)))
          draws := s.draws + drawsFor (s.msg.read s.mptr.toNat) + drawsFor (s.msg.read (s.mptr.toNat + 1)) }) := by
  simp only [encodeChars, thenDo_eq_next, writeGrp_eq_next, readChars_eq_next]
  constructor
  · rintro ⟨r, ⟨h, rfl⟩, u, ⟨h2, rfl⟩, h3⟩
    simp only [orDraw_state, orDraw_value, Host.Outcome.next.injEq] at h2 h3
    exact ⟨h, h2, h3.symm⟩
  · rintro ⟨h, h2, rfl⟩
    refine ⟨_, ⟨h, rfl⟩, _, ⟨by simpa using h2, rfl⟩, ?_⟩
    simp only [orDraw_state, orDraw_value]
    rfl

/-! ### The operations of the packer -/

/-- Everything appending an output bit can do. -/
theorem appendBit_eq_next {o : Bool} {s t : State} :
    appendBit o s = .next t ↔
      (s.nbits = 7#3 ∧ s.optr.toNat < s.cfg.outSize ∧
        t = { s with out := s.out.write s.optr.toNat (shiftIn s.acc o), acc := shiftIn s.acc o, optr := s.optr + 1,
                     nbits := 0#3 }) ∨
      (s.nbits ≠ 7#3 ∧ t = { s with acc := shiftIn s.acc o, nbits := s.nbits + 1 }) := by
  unfold appendBit
  split
  · next h =>
    simp only [thenDo_eq_next, writeOut_eq_next]
    constructor
    · rintro ⟨u, ⟨h2, rfl⟩, h3⟩
      exact .inl ⟨h, h2, by simpa [eq_comm] using h3⟩
    · rintro (⟨_, h2, rfl⟩ | ⟨h2, _⟩)
      · exact ⟨_, ⟨h2, rfl⟩, rfl⟩
      · exact absurd h h2
  · next h => simp [h, eq_comm]

/-- The protocol bit a `PACK.BIT` step packs next. -/
def nextRaw (s : State) : Bool := protocolBit (grpWord s s.widx.toNat) s.pos

/-- `ACC` with the output bit of that protocol bit shifted in. -/
def nextAcc (s : State) : BitVec 8 := shiftIn s.acc (diffBit (nextRaw s) s.lastBit)

/-- Everything `PACK.BIT` can do. -/
theorem packOne_eq_next {s t : State} :
    packOne s = .next t ↔
      s.widx.toNat < s.cfg.grpSize ∧
        ((s.nbits = 7#3 ∧ s.optr.toNat < s.cfg.outSize ∧
          t = nextBit { s with
            out := s.out.write s.optr.toNat (nextAcc s), acc := nextAcc s, optr := s.optr + 1, nbits := 0#3,
            lastBit := nextRaw s, draws := s.draws + drawsFor (s.grp.read s.widx.toNat) }) ∨
        (s.nbits ≠ 7#3 ∧
          t = nextBit { s with
            acc := nextAcc s, nbits := s.nbits + 1, lastBit := nextRaw s,
            draws := s.draws + drawsFor (s.grp.read s.widx.toNat) })) := by
  simp only [packOne, thenDo_eq_next, readGrp_eq_next]
  constructor
  · rintro ⟨r, ⟨h, rfl⟩, u, h2, h3⟩
    simp only [orDraw_state, orDraw_value] at h2 h3
    refine ⟨h, ?_⟩
    rcases appendBit_eq_next.1 h2 with ⟨a, b, rfl⟩ | ⟨a, rfl⟩
    · exact .inl ⟨a, b, (Host.Outcome.next.inj h3).symm⟩
    · exact .inr ⟨a, (Host.Outcome.next.inj h3).symm⟩
  · rintro ⟨h, h2⟩
    refine ⟨_, ⟨h, rfl⟩, ?_⟩
    simp only [orDraw_state, orDraw_value]
    rcases h2 with ⟨a, b, rfl⟩ | ⟨a, rfl⟩
    · exact ⟨_, appendBit_eq_next.2 (.inl ⟨a, b, rfl⟩), rfl⟩
    · exact ⟨_, appendBit_eq_next.2 (.inr ⟨a, rfl⟩), rfl⟩

/-- Where the cells exist, `PACK.BIT` completes. -/
theorem packOne_completes {s : State} (hw : s.widx.toNat < s.cfg.grpSize)
    (ho : s.nbits = 7#3 → s.optr.toNat < s.cfg.outSize) : ∃ t, packOne s = .next t := by
  by_cases hn : s.nbits = 7#3
  · exact ⟨_, packOne_eq_next.2 ⟨hw, .inl ⟨hn, ho hn, rfl⟩⟩⟩
  · exact ⟨_, packOne_eq_next.2 ⟨hw, .inr ⟨hn, rfl⟩⟩⟩

/-- Everything moving to the next protocol bit can do. -/
theorem nextBit_cases (s : State) :
    (s.pos = 6#5 ∧ s.widx.toNat + 1 = 4 * s.pktCount.toNat ∧
        nextBit s = finishPass { s with pos := 31#5, widx := s.widx + 1 }) ∨
      (s.pos = 6#5 ∧ s.widx.toNat + 1 ≠ 4 * s.pktCount.toNat ∧
        nextBit s = { s with pos := 31#5, widx := s.widx + 1 }) ∨
      (s.pos ≠ 6#5 ∧ nextBit s = { s with pos := s.pos - 1 }) := by
  unfold nextBit
  split
  · split
    · next h1 h2 => exact .inl ⟨h1, h2, rfl⟩
    · next h1 h2 => exact .inr (.inl ⟨h1, h2, rfl⟩)
  · next h => exact .inr (.inr ⟨h, rfl⟩)

@[simp] theorem shiftIn_bit_zero (a : BitVec 8) (o : Bool) : (shiftIn a o).getLsbD 0 = o := by
  rw [shiftIn, BitVec.getLsbD_append]; simp

theorem shiftIn_bit_succ (a : BitVec 8) (o : Bool) {k : Nat} (h : k < 7) : (shiftIn a o).getLsbD (k + 1) = a.getLsbD k := by
  rw [shiftIn, BitVec.getLsbD_append]; simp [h]

/-- The bit `7 - k` of a byte is the `k`-th bit packed into it (20_memory.md R35 (c)). -/
theorem byteOf_bit (f : Nat → Bool) {k : Nat} (h : k < 8) : (byteOf f).getLsbD (7 - k) = f k := by
  have : k = 0 ∨ k = 1 ∨ k = 2 ∨ k = 3 ∨ k = 4 ∨ k = 5 ∨ k = 6 ∨ k = 7 := by omega
  unfold byteOf
  rcases this with rfl | rfl | rfl | rfl | rfl | rfl | rfl | rfl <;>
    repeat (first | rw [BitVec.getLsbD_append] | simp)

/-! ### The sequencer -/

@[simp] theorem busy_iff (s : State) : s.busy = true ↔ s.phase ≠ .idle := by
  cases h : s.phase <;> simp [State.busy, h]

@[simp] theorem countOk_iff (s : State) :
    s.countOk = true ↔ 1 ≤ s.pktCount.toNat ∧ s.pktCount.toNat ≤ s.cfg.maxPackets := by
  simp [State.countOk]

theorem sel_phase (s : State) : s.sel.extractLsb' 2 2 = s.phase.code := by
  rw [State.sel, BitVec.extractLsb'_append_eq_left]

theorem sel_low (s : State) : s.sel.extractLsb' 0 2 = s.blk.extractLsb' 0 2 := by
  rw [State.sel, BitVec.extractLsb'_append_eq_right]

/-- The operation the core performs next, by its phase and the block kind (30_encoding.md R58). -/
theorem decodeSeq_sel (s : State) :
    decodeSeq s.sel =
      match s.phase with
      | .idle => .noStep (s.blk.extractLsb' 0 2)
      | .encode =>
        if s.blk.extractLsb' 0 2 = 0b00#2 then .encPi
        else if s.blk.extractLsb' 0 2 = 0b01#2 then .encCtrl
        else if s.blk.extractLsb' 0 2 = 0b10#2 then .encChc
        else .encChd
      | .pack => .packBit (s.blk.extractLsb' 0 2)
      | .reserved => .reserved (s.blk.extractLsb' 0 2) := by
  simp only [decodeSeq, sel_phase, sel_low]
  cases s.phase <;> simp [Phase.code]

@[simp] theorem Phase.ofCode_code (p : Phase) : Phase.ofCode p.code = p := by
  cases p <;> rfl

end Sys2Proof.Machine
end

