-- ==== Sys2Proof/Laws/PerInstr.lean ====
section
/-! SUPPORT. Statements about every operation as syntax, one lemma per constructor. -/

namespace Sys2Proof.Laws.EncodingMatchesTable

/-- The encoding of the operation has its row's selector, and matches the row's mask and match of
spec/opcode_table.json. -/
def Statement (i : Instr) : Prop :=
  (encode i).port = (tableRow i).port ∧ (encode i).bits &&& (tableRow i).mask = (tableRow i).value

theorem encPi : Statement .encPi := by unfold Statement; decide

theorem encCtrl : Statement .encCtrl := by unfold Statement; decide

theorem encChc : Statement .encChc := by unfold Statement; decide

theorem encChd : Statement .encChd := by unfold Statement; decide

theorem packBit (lo : BitVec 2) : Statement (.packBit lo) := by
  revert lo; unfold Statement; decide

theorem packWord : Statement .packWord := by unfold Statement; decide

theorem crcA (m : Info) : Statement (.crcA m) := by simp [Statement, encode, tableRow, Selector.port, Selector.bits, Offset.code]

theorem crcB (m : Info) : Statement (.crcB m) := by simp [Statement, encode, tableRow, Selector.port, Selector.bits, Offset.code]

theorem crcC (m : Info) : Statement (.crcC m) := by simp [Statement, encode, tableRow, Selector.port, Selector.bits, Offset.code]

theorem crcD (m : Info) : Statement (.crcD m) := by simp [Statement, encode, tableRow, Selector.port, Selector.bits, Offset.code]

theorem start (rsv : BitVec 15) : Statement (.start rsv) := by
  refine ⟨rfl, ?_⟩
  simp only [encode, Selector.bits, tableRow, BitVec.toNat_append, Nat.and_one_is_mod]
  simp [Nat.shiftLeft_eq]

theorem finish : Statement .finish := by unfold Statement; decide

theorem noStep (lo : BitVec 2) : Statement (.noStep lo) := by
  revert lo; unfold Statement; decide

theorem reserved (lo : BitVec 2) : Statement (.reserved lo) := by
  revert lo; unfold Statement; decide

end Sys2Proof.Laws.EncodingMatchesTable
end

