-- ==== Sys2Proof/Laws/Step.lean ====
section
/-! SUPPORT. What a turn can do, said once: every case of a host move, of a core step and of a step that answers a next
state. Invariants are proved from these and never unfold the step. -/

namespace Sys2Proof.Machine

/-- Reading only: what was asked for is answered, and free values may be drawn. -/
def OnlyAnswers (s t : State) : Prop := t = { s with answer := t.answer, draws := t.draws }

theorem onlyAnswers_refl (s : State) : OnlyAnswers s s := rfl

theorem onlyAnswers_give (x : Answer) (s : State) : OnlyAnswers s (giveAnswer x s) := rfl

theorem onlyAnswers_draw (x : Answer) (w : Nat) (s : State) : OnlyAnswers s (giveAnswer x (draw w s).2) := rfl

theorem onlyAnswers_orDraw {w : Nat} (x : Answer) (c : Option (BitVec w)) (s : State) :
    OnlyAnswers s (giveAnswer x (orDraw c s).2) := by
  cases c <;> rfl

/-- Everything a host move can do when it answers a next state. -/
theorem hostMove_cases {m : HostMove} {s t : State} (h : hostMove m s = .next t) :
    OnlyAnswers s t ∨
      (s.phase = .idle ∧ t = { s with piCode := t.piCode, piCheck := t.piCheck, pktCount := t.pktCount }) ∨
      (s.phase = .idle ∧ ∃ a b, a < s.cfg.msgSize ∧ t = { s with msg := s.msg.write a b }) ∨
      (s.phase = .idle ∧ s.countOk = true ∧ (∃ v, m = .writeReg .ctrl v ∧ v.getLsbD 0 = true) ∧ t = beginPass s) ∨
      (m = .reset ∧ t = resetMachine s) := by
  cases m with
  | writeReg r v =>
    cases r with
    | ctrl =>
      simp only [hostMove, hostWriteReg, hostWriteCtrl, decode, decodeCtrl] at h
      by_cases hv : v.getLsbD 0 = true
      · simp only [hv, if_true, execStart] at h
        split at h
        · cases h; exact .inl (onlyAnswers_refl s)
        · next hb =>
          split at h
          · next hc =>
            cases h
            exact .inr (.inr (.inr (.inl ⟨by simpa using hb, hc, ⟨v, rfl, hv⟩, rfl⟩)))
          · cases h
      · simp only [hv] at h
        cases h; exact .inl (onlyAnswers_refl s)
    | status => cases h; exact .inl (onlyAnswers_refl s)
    | outLen => cases h; exact .inl (onlyAnswers_refl s)
    | piCode | piCheck | pktCount =>
      simp only [hostMove, hostWriteReg] at h
      split at h
      · cases h; exact .inl (onlyAnswers_refl s)
      · next hb => cases h; exact .inr (.inl ⟨by simpa using hb, rfl⟩)
  | readReg r =>
    cases r with
    | outLen =>
      simp only [hostMove, hostReadReg] at h
      split at h
      · cases h; exact .inl (onlyAnswers_draw _ _ s)
      · cases h; exact .inl (onlyAnswers_give _ s)
    | piCode | piCheck | pktCount | ctrl | status => cases h; exact .inl (onlyAnswers_give _ s)
  | writeMsg a b =>
    simp only [hostMove, hostWriteMsg, thenDo_eq_next, writeMsg_eq_next] at h
    obtain ⟨u, ⟨ha, rfl⟩, h⟩ := h
    split at h
    · cases h; exact .inl (onlyAnswers_refl s)
    · next hb => cases h; exact .inr (.inr (.inl ⟨by simpa using hb, a, b, ha, rfl⟩))
  | readMsg a =>
    simp only [hostMove, hostReadMsg, thenDo_eq_next, readMsg_eq_next] at h
    obtain ⟨r, ⟨_, rfl⟩, h⟩ := h
    cases h; exact .inl (onlyAnswers_orDraw _ _ s)
  | writeGrp a w =>
    simp only [hostMove, hostWriteGrp, thenDo_eq_next] at h
    obtain ⟨_, _, h⟩ := h
    cases h; exact .inl (onlyAnswers_refl s)
  | writeOut a b =>
    simp only [hostMove, hostWriteOut, thenDo_eq_next] at h
    obtain ⟨_, _, h⟩ := h
    cases h; exact .inl (onlyAnswers_refl s)
  | readGrp a =>
    simp only [hostMove, hostReadGrp, thenDo_eq_next, readGrp_eq_next] at h
    obtain ⟨r, ⟨_, rfl⟩, h⟩ := h
    split at h <;> cases h
    · exact .inl (onlyAnswers_draw _ _ s)
    · exact .inl (onlyAnswers_orDraw _ _ s)
  | readOut a =>
    simp only [hostMove, hostReadOut, thenDo_eq_next, readOut_eq_next] at h
    obtain ⟨r, ⟨_, rfl⟩, h⟩ := h
    split at h <;> cases h
    · exact .inl (onlyAnswers_draw _ _ s)
    · exact .inl (onlyAnswers_orDraw _ _ s)
  | reset => cases h; exact .inr (.inr (.inr (.inr ⟨rfl, rfl⟩)))

/-- Everything a step can do when it answers a next state, by whose turn it was. -/
theorem step_cases {s t : State} (h : step s = .next t) :
    (∃ ts, (s.turns = [] ∧ ts = [] ∨ s.turns = .core :: ts) ∧ coreTurn { s with turns := ts } = .next t) ∨
      (∃ m ts, s.turns = .host m :: ts ∧ hostMove m { s with turns := ts } = .next t) ∨
      (∃ i ts, s.turns = .named i :: ts ∧ exec i { s with turns := ts } = .next t) := by
  unfold step takeTurn at h
  split at h
  · next hs => exact .inl ⟨[], .inl ⟨hs, rfl⟩, by rw [← hs]; exact h⟩
  · next ts hs => exact .inl ⟨ts, .inr hs, h⟩
  · next m ts hs => exact .inr (.inl ⟨m, ts, hs, h⟩)
  · next i ts hs => exact .inr (.inr ⟨i, ts, hs, h⟩)

/-- The low two bits of `BLK` are the block index modulo 4 (30_encoding.md R57). -/
theorem blk_low_toNat (b : BitVec 10) : (b.extractLsb' 0 2).toNat = b.toNat % 4 := by
  simp [BitVec.extractLsb'_toNat]

/-- Everything the core's step can do when it answers a next state, by phase and block kind (30_encoding.md R58). -/
theorem coreTurn_cases {s t : State} (h : coreTurn s = .next t) :
    (s.phase = .idle ∧ t = s) ∨
      (s.phase = .encode ∧ s.blk.toNat % 4 = 0 ∧ s.blk.toNat < s.cfg.grpSize ∧
        t = advance { s with grp := s.grp.write s.blk.toNat (piWord s.piCode s.piCheck) }) ∨
      (s.phase = .encode ∧ s.blk.toNat % 4 = 1 ∧ s.blk.toNat < s.cfg.grpSize ∧
        t = advance { s with grp := s.grp.write s.blk.toNat (controlWord s.cfg s.seg) }) ∨
      (s.phase = .encode ∧ s.blk.toNat % 4 = 2 ∧ encodeChars .c s = .next t) ∨
      (s.phase = .encode ∧ s.blk.toNat % 4 = 3 ∧ ∃ u, encodeChars .d s = .next u ∧ t = nextSegment u) ∨
      (s.phase = .pack ∧ packOne s = .next t) := by
  have hl := blk_low_toNat s.blk
  rw [coreTurn, decodeSeq_sel] at h
  have phases : s.phase = .idle ∨ s.phase = .encode ∨ s.phase = .pack ∨ s.phase = .reserved := by
    cases s.phase <;> simp
  rcases phases with hp | hp | hp | hp <;> simp only [hp] at h
  · cases h; exact .inl ⟨hp, rfl⟩
  · split at h
    · next e =>
      obtain ⟨h1, h2⟩ := store_advance_eq_next.1 h
      exact .inr (.inl ⟨hp, by rw [← hl, e]; rfl, h1, h2⟩)
    · split at h
      · next e =>
        obtain ⟨h1, h2⟩ := store_advance_eq_next.1 h
        exact .inr (.inr (.inl ⟨hp, by rw [← hl, e]; rfl, h1, h2⟩))
      · split at h
        · next e => exact .inr (.inr (.inr (.inl ⟨hp, by rw [← hl, e]; rfl, h⟩)))
        · next e0 e1 e2 =>
          obtain ⟨u, h1, h2⟩ := thenDo_eq_next.1 h
          have e3 : s.blk.extractLsb' 0 2 = 3#2 := by
            revert e0 e1 e2
            generalize s.blk.extractLsb' 0 2 = x
            revert x; decide
          refine .inr (.inr (.inr (.inr (.inl ⟨hp, by rw [← hl, e3]; rfl, u, h1, ?_⟩))))
          cases h2; rfl
  · exact .inr (.inr (.inr (.inr (.inr ⟨hp, h⟩))))
  · cases h

/-! ### Runs with host moves between the core steps (43_sequencer_host.md R113) -/

@[simp] theorem coreMoves_iff (s : State) : s.coreMoves = true ↔ s.turns = [] ∨ ∃ ts, s.turns = .core :: ts := by
  unfold State.coreMoves
  split <;> simp_all

@[simp] theorem mayJoinPass_core (c : Config) : Turn.mayJoinPass c .core = true := rfl

@[simp] theorem mayJoinPass_named (c : Config) (i : Instr) : Turn.mayJoinPass c (.named i) = false := rfl

@[simp] theorem mayJoinPass_host (c : Config) (m : HostMove) :
    Turn.mayJoinPass c (.host m) = true ↔ m.cellExists c = true ∧ m ≠ .reset := by
  simp [Turn.mayJoinPass]

theorem mayJoinPass_isHardware {c : Config} {u : Turn} (h : u.mayJoinPass c = true) : u.isHardware = true := by
  cases u <;> simp_all [Turn.isHardware]

/-- While the core is busy, a step of the two agents other than reset is the core's, or only reads. -/
theorem step_busy_cases {s t : State} (hw : ∀ u ∈ s.turns, u.isHardware = true) (hb : s.phase ≠ .idle)
    (hr : ∀ ts, s.turns ≠ .host .reset :: ts) (h : step s = .next t) :
    (s.coreMoves = true ∧ ∃ ts, coreTurn { s with turns := ts } = .next t) ∨
      (s.coreMoves = false ∧ ∃ ts, OnlyAnswers { s with turns := ts } t) := by
  rcases step_cases h with ⟨ts, ht, h⟩ | ⟨m, ts, ht, h⟩ | ⟨i, ts, ht, _⟩
  · exact .inl ⟨(coreMoves_iff s).2 (ht.imp (·.1) fun h => ⟨ts, h⟩), ts, h⟩
  · refine .inr ⟨by simp [State.coreMoves, ht], ts, ?_⟩
    rcases hostMove_cases h with h | ⟨hi, _⟩ | ⟨hi, _⟩ | ⟨hi, _⟩ | ⟨rfl, _⟩
    · exact h
    · exact absurd hi hb
    · exact absurd hi hb
    · exact absurd hi hb
    · exact absurd ht (hr ts)
  · have := hw (.named i) (by simp [ht])
    cases this

/-- The invariant reads none of the model's own fields but the turns. -/
theorem inv_own {s : State} (h : Inv s) (ts : List Turn) (hts : ∀ u ∈ ts, u.isHardware = true) (a : Option Answer)
    (d : Nat) : Inv { s with turns := ts, answer := a, draws := d } where
  params := h.params
  buffers := ⟨h.buffers.msg, h.buffers.grp, h.buffers.out⟩
  hardware := hts
  phase := h.phase
  count := h.count
  notBoth := h.notBoth
  encode := fun hp =>
    let e := h.encode hp
    ⟨e.blk, e.seg, e.mptr, ⟨e.fresh.lastBit, e.fresh.acc, e.fresh.nbits, e.fresh.optr, e.fresh.widx, e.fresh.pos⟩⟩
  pack := fun hp =>
    let e := h.pack hp
    ⟨e.blk, e.mptr, e.widx, e.pos, e.optr, e.nbits, e.first⟩
  finished := fun hp hd =>
    let ⟨n, e⟩ := h.finished hp hd
    ⟨n, e.atLeastOne, e.atMost, e.blk, e.mptr, e.widx, e.pos, e.nbits, e.optr⟩

/-- The produced words do not depend on the model's own fields. -/
theorem groupsInv_own {msg : Nat → Byte} {s : State} (h : GroupsInv msg s) (ts : List Turn) (a : Option Answer)
    (d : Nat) : GroupsInv msg { s with turns := ts, answer := a, draws := d } := ⟨h.message, h.produced⟩

/-- The packed bytes do not depend on the model's own fields. -/
theorem outInv_own {g : Nat → Word} {s : State} (h : OutInv g s) (ts : List Turn) (a : Option Answer) (d : Nat) :
    OutInv g { s with turns := ts, answer := a, draws := d } := ⟨h.words, h.bytes, h.waiting, h.last⟩

/-- A run of `j + k` steps is a run of `j` steps and then one of `k`. -/
theorem run_add (M : Host.Core) {j : Nat} (k : Nat) {s u : M.State} (h : M.run j s = .next u) :
    M.run (j + k) s = M.run k u := by
  induction j generalizing s with
  | zero => cases h; rw [Nat.zero_add]
  | succ j ih =>
    rw [Nat.succ_add]
    simp only [Host.Core.run] at h ⊢
    cases hs : M.step s with
    | next v => rw [hs] at h; exact ih h
    | fault f => rw [hs] at h; cases h
    | refused f => rw [hs] at h; cases h

end Sys2Proof.Machine
end

