-- ==== Sys2Proof/Tests/Slice0.lean ====
section
/-! SUPPORT. Tests: what the checks refuse, words written out from the spec's tables, the spec's vectors
(95_test_vectors.md, and the worked examples of the rules) on single steps, and a witness for the hypotheses of every
statement that has some. -/

namespace Sys2Proof.Tests

open Sys2Proof.Machine

/-! ## Well-formedness -/

theorem test_start_with_reserved_bits_is_ill_formed : (Instr.start 1#15).wellFormed = false := by decide

theorem test_reserved_row_is_ill_formed : (Instr.reserved 0#2).wellFormed = false := by decide

theorem test_start_is_well_formed : (Instr.start 0#15).wellFormed = true := by decide

theorem test_turn_by_name_is_no_turn_of_the_hardware : (Turn.named .finish).isHardware = false := by decide

theorem test_no_packets_is_no_configuration : Config.wf { defaultConfig with maxPackets := 0 } = false := by decide

theorem test_256_packets_is_no_configuration : Config.wf { defaultConfig with maxPackets := 256 } = false := by decide

/-! ## Words written out from the spec's tables (30_encoding.md R57, R58; 10_state.md R15) -/

theorem test_decode_seq :
    [0b0000#4, 0b0011#4, 0b0100#4, 0b0101#4, 0b0110#4, 0b0111#4, 0b1000#4, 0b1011#4, 0b1100#4, 0b1111#4].map decodeSeq =
      [.noStep 0, .noStep 3, .encPi, .encCtrl, .encChc, .encChd, .packBit 0, .packBit 3, .reserved 0, .reserved 3] := by
  decide

theorem test_decode_crc :
    [0b00#2, 0b01#2, 0b10#2, 0b11#2].map (decodeCrc · 0x54A8#16) =
      [.crcA 0x54A8, .crcB 0x54A8, .crcC 0x54A8, .crcD 0x54A8] := by decide

theorem test_decode_start : decode (.ctrl 0b0000000000000001#16) = .ok (.start 0) := by rfl

theorem test_decode_ctrl_zero : decode (.ctrl 0b0000000000000000#16) = .error .startBitClear := by rfl

/-- The rows of spec/opcode_table.json by their match values, in whole bytes (entry 10). -/
theorem test_table_words :
    [decodeTableWord 8 0x4, decodeTableWord 8 0x5, decodeTableWord 8 0x6, decodeTableWord 8 0x7, decodeTableWord 8 0x8,
      decodeTableWord 8 0xC, decodeTableWord 8 0x0, decodeTableWord 8 0x1, decodeTableWord 8 0x2, decodeTableWord 8 0x3,
      decodeTableWord 16 0x0001, decodeTableWord 4 0x0] =
      [some .encPi, some .encCtrl, some .encChc, some .encChd, some (.packBit 0), some (.reserved 0), some (.crcA 0),
        some (.crcB 0), some (.crcC 0), some (.crcD 0), some (.start 0), some (.noStep 0)] := by decide

theorem test_table_words_rejected :
    [decodeTableWord 8 0x10, decodeTableWord 16 0x0000, decodeTableWord 32 0x4] = [none, none, none] := by decide

/-! ## Single operations on the spec's vectors -/

/-- A field of the state an outcome answers, if it is a next state. -/
def fieldOf {α : Type} (r : Host.Outcome State Fault Refusal) (f : State → α) : Option α :=
  match r with
  | .next t => some (f t)
  | .fault _ => none
  | .refused _ => none

/-- A core that encodes, at block `blk` of `n` packets, with the message bytes `hi`, `lo` next. -/
def encoding (n : BitVec 8) (blk : BitVec 10) (seg : BitVec 4) (mptr : BitVec 10) (hi lo : Byte) : State :=
  { State.reset with
    piCode := 0x54A8#16, piCheck := 0x3CA#10, pktCount := n, phase := .encode, blk := blk, seg := seg, mptr := mptr
    msg := [(mptr.toNat, hi), (mptr.toNat + 1, lo)] }

/-- R82's worked example. -/
theorem test_encPi_word :
    fieldOf (exec .encPi (encoding 1 0 0 0 0 0)) (fun t => (t.grp, t.blk, t.mptr)) =
      some ([(0, 0x54A8F280#32)], 1, 0) := by decide

/-- R83's worked example; table V3, segment 15. -/
theorem test_encCtrl_word :
    fieldOf (exec .encCtrl (encoding 1 1 0 0 0 0)) (·.grp) = some [(1, 0x20008DC0#32)] ∧
      fieldOf (exec .encCtrl (encoding 16 61 15 60 0 0)) (·.grp) = some [(61, 0x200F2880#32)] := by decide

/-- Table V4, "AB" and the next fields. -/
theorem test_encChc_word :
    fieldOf (exec .encChc (encoding 1 2 0 0 0x41 0x42)) (fun t => (t.grp, t.blk, t.mptr, t.seg)) =
      some ([(2, 0x41420580#32)], 3, 2, 0) := by decide

/-- Table V4, "BA", from segment 15, on the last block: the turn to PACK (R112). -/
theorem test_encChd_word :
    fieldOf (exec .encChd (encoding 16 63 15 62 0x42 0x41)) (fun t => (t.grp, t.blk, t.mptr, t.seg, t.phase)) =
      some ([(63, 0x4241D940#32)], 64, 64, 0, .pack) := by decide

/-- V4, a packet that is not the last: no turn. -/
theorem test_encChd_not_last :
    fieldOf (exec .encChd (encoding 2 3 0 2 0x20 0x20)) (fun t => (t.grp, t.seg, t.phase)) =
      some ([(3, 0x20203700#32)], 1, .encode) := by decide

/-- Table V2, row `0x54A8`. -/
theorem test_crc_rows :
    [fieldOf (exec (.crcA 0x54A8) .reset) (·.answer), fieldOf (exec (.crcB 0x54A8) .reset) (·.answer),
      fieldOf (exec (.crcC 0x54A8) .reset) (·.answer), fieldOf (exec (.crcD 0x54A8) .reset) (·.answer)] =
      [some (some (.checkword 0x3CA#10)), some (some (.checkword 0x2AE#10)), some (some (.checkword 0x25E#10)),
        some (some (.checkword 0x282#10))] := by decide

/-- Table V2, columns A to D of rows `0xFFFF`, `0x2020`, `0xAAAA`. -/
theorem test_crc_vectors :
    [0xFFFF#16, 0x2020#16, 0xAAAA#16].map
        (fun m => [crc defaultConfig m .a, crc defaultConfig m .b, crc defaultConfig m .c, crc defaultConfig m .d]) =
      [[0x031#10, 0x155#10, 0x1A5#10, 0x179#10], [0x194#10, 0x0F0#10, 0x000#10, 0x0DC#10],
        [0x31D#10, 0x279#10, 0x289#10, 0x255#10]] := by decide

/-- A core that packs one packet, at position `pos` of `GRP[widx] = w`. -/
def packing (widx : BitVec 10) (w : Word) (pos : BitVec 5) (last : Bool) (acc : BitVec 8) (nbits : BitVec 3)
    (optr : BitVec 12) : State :=
  { State.reset with
    pktCount := 1, phase := .pack, blk := 4, mptr := 4, widx := widx, pos := pos, lastBit := last, acc := acc
    nbits := nbits, optr := optr, grp := [(widx.toNat, w)] }

/-- R98's worked example. -/
theorem test_packBit_completes_byte :
    fieldOf (exec (.packBit 0) (packing 0 0x54A8F280 24 false 0b00111111 7 0))
        (fun t => (t.out, t.lastBit, t.nbits, t.pos)) =
      some ([(0, 0x7E#8)], false, 0, 23) := by decide

/-- P1's last step: the 104th `PACK.BIT` writes `OUT[12] = 0xB2`, and `FINISH`. -/
theorem test_packBit_finishes :
    fieldOf (exec (.packBit 0) (packing 3 0x20203700 6 false 0b01011001 7 12))
        (fun t => (t.out, t.widx, t.optr, t.status)) =
      some ([(12, 0xB2#8)], 4, 13, 0x0002#16) := by decide

/-- Table V5, `0xAAAAAAAA`: 26 ones, three whole bytes, two bits waiting. -/
theorem test_packWord :
    fieldOf (exec .packWord (packing 0 0xAAAAAAAA 31 false 0 0 0)) (fun t => (t.out, t.nbits, t.lastBit, t.widx)) =
      some ([(0, 0xFF#8), (1, 0xFF#8), (2, 0xFF#8)], 2, false, 1) := by decide

/-- V7: `START` with `PKT_COUNT = 1`. -/
theorem test_start_accepted :
    fieldOf (exec (.start 0) { State.reset with pktCount := 1, done := true, blk := 9, pos := 6, lastBit := true })
        (fun t => (t.phase, t.status, t.blk, t.pos, t.lastBit)) =
      some (.encode, 0x0001#16, 0, 31, false) := by decide

/-- V7: `START` while busy changes nothing. -/
theorem test_start_ignored :
    exec (.start 0) (packing 3 0 6 true 5 7 12) = .next (packing 3 0 6 true 5 7 12) := by rfl

/-- R127: `START` from the reset state is refused. -/
theorem test_start_refused : exec (.start 0) .reset = .refused .badPacketCount := by rfl

/-- V7: `FINISH`. -/
theorem test_finish :
    fieldOf (exec .finish (packing 3 0 6 false 0 7 12)) (fun t => (t.phase, t.status)) = some (.idle, 0x0002#16) := by
  decide

theorem test_noStep : exec (.noStep 3) .reset = .next .reset := by rfl

theorem test_reserved : exec (.reserved 3) .reset = .refused .reservedPhase := by rfl

/-! ## Host moves (V10) and placed words -/

/-- The state one step gives when the host makes the move `m`. -/
def afterMove (m : HostMove) (s : State) : Host.Outcome State Fault Refusal := step { s with turns := [.host m] }

/-- V10: a 16-bit write of `PI_CHECK`. -/
theorem test_write_pi_check : fieldOf (afterMove (.writeReg .piCheck 0xFFFF) .reset) (·.piCheck) = some 0x3FF#10 := by
  decide

/-- V10: writes while busy are ignored. -/
theorem test_write_while_busy :
    fieldOf (afterMove (.writeReg .pktCount 5) (packing 0 0 31 false 0 0 0)) (·.pktCount) = some 1#8 ∧
      fieldOf (afterMove (.writeMsg 0 7) (packing 0 0 31 false 0 0 0)) (·.msg) = some [] := by decide

/-- V10: `STATUS` while busy. -/
theorem test_read_status_busy :
    fieldOf (afterMove (.readReg .status) (packing 0 0 31 false 0 0 0)) (·.answer) = some (some (.reg 0x0001#16)) := by
  decide

/-- V7: reset while busy. -/
theorem test_reset_while_busy :
    fieldOf (afterMove .reset (packing 2 0 9 true 3 4 5)) (fun t => (t.phase, t.status, t.pos, t.grp)) =
      some (.idle, 0#16, 31, []) := by decide

/-- R30: no cell 64 in `MSG`, none 208 in `OUT`. -/
theorem test_missing_cells :
    afterMove (.readMsg 64) .reset = .fault (.noSuchCell .msg 64) ∧
      afterMove (.readOut 208) .reset = .fault (.noSuchCell .out 208) := ⟨rfl, rfl⟩

/-- A placed word runs as the first operation after reset: `ENC.PI`, and `CRC.B` of 0 (table V2). -/
theorem test_placed_word_runs :
    fieldOf (step (State.reset.withFetchWord 8 0x4)) (fun t => (t.grp, t.blk)) = some ([(0, 0#32)], 1) ∧
      fieldOf (step (State.reset.withFetchWord 8 0x1)) (·.answer) = some (some (.checkword 0x198#10)) := by decide

/-! ## Witnesses: states and operands that meet the hypotheses of the statements -/

theorem witness_DecodeOfEncode : (Instr.start 0x7FFF#15).hasOwnSelector = true ∧ Instr.encPi.hasOwnSelector = true := by
  decide

theorem witness_EncodeOfDecode :
    decode (.seq 0b0111#4) = .ok .encChd ∧ decode (.ctrl 0xFFFE#16) = .error .startBitClear := ⟨rfl, rfl⟩

theorem witness_BlockWordReadsBack :
    (Block.pi 0x54A8 0x3CA).hasKind .pi = true ∧ (Block.control 4 0 0 0 15 0x0A2).hasKind .control = true ∧
      (Block.char 0x41 0x42 0x016).hasKind .charC = true ∧ (Block.char 0xFF 0xFF 0x179).hasKind .charD = true := by decide

theorem witness_ControlWords :
    defaultConfig.gt2a = 0b00100#5 ∧ defaultConfig.ptyVal = 0b00000#5 ∧ defaultConfig.abVal = 0b0#1 ∧
      defaultConfig.crcTable = defaultCrcTable := by decide

/-- First and last block of a kind, first and last message cells. -/
theorem witness_Enc :
    (∀ k : Fin 4, (encoding 16 (BitVec.ofNat 10 (60 + k)) 15 62 1 2).blk.toNat <
      (encoding 16 (BitVec.ofNat 10 (60 + k)) 15 62 1 2).cfg.grpSize ∧
      (encoding 16 (BitVec.ofNat 10 (60 + k)) 15 62 1 2).phase = .encode ∧
      (encoding 16 (BitVec.ofNat 10 (60 + k)) 15 62 1 2).blk.extractLsb' 0 2 = BitVec.ofNat 2 k) ∧
      (encoding 16 63 15 62 1 2).mptr.toNat + 1 < (encoding 16 63 15 62 1 2).cfg.msgSize ∧
      (encoding 16 0 0 0 1 2).blk.toNat < (encoding 16 0 0 0 1 2).cfg.grpSize := by decide

theorem witness_EncodedWordsAreValid :
    (∃ t, exec .encCtrl (encoding 16 61 15 60 0 0) = .next t) ∧ (∃ t, exec .encChc (encoding 1 2 0 0 1 2) = .next t) ∧
      (∃ t, exec .encChd (encoding 1 3 0 2 1 2) = .next t) ∧ (∃ t, exec .encPi (encoding 1 0 0 0 1 2) = .next t) :=
  ⟨⟨_, rfl⟩, ⟨_, rfl⟩, ⟨_, rfl⟩, ⟨_, rfl⟩⟩

theorem witness_PassesExtend :
    ∃ m₁ m₂ : Nat → Byte, 1 ≤ 2 ∧ (∀ a, a < 4 * 1 → m₁ a = m₂ a) ∧ m₁ 4 ≠ m₂ 4 :=
  ⟨fun _ => 0, fun a => if a < 4 then 0 else 1, by decide, by intro a h; simp [h], by decide⟩

/-- The last bit of the last word, with the last byte of `OUT` to write; and a bit that completes no byte. -/
theorem witness_PackBit :
    let s := { packing 63 1 6 true 0 7 207 with pktCount := 16 }
    s.widx.toNat < s.cfg.grpSize ∧ (s.nbits = 7#3 → s.optr.toNat < s.cfg.outSize) ∧ s.nbits = 7#3 ∧ s.pos = 6#5 ∧
      s.widx.toNat + 1 = 4 * s.pktCount.toNat ∧ s.phase = .pack ∧ (packing 0 1 31 false 0 0 208).nbits ≠ 7#3 := by decide

/-- With the output exactly full at the end. -/
theorem witness_PackWord :
    let s := { packing 63 0xAAAAAAAA 31 true 0x15 6 204 with pktCount := 16 }
    s.cfg.wf = true ∧ s.pos = 31#5 ∧ s.widx.toNat < s.cfg.grpSize ∧ s.grp.read s.widx.toNat = some 0xAAAAAAAA#32 ∧
      s.optr.toNat + (s.nbits.toNat + 26) / 8 ≤ s.cfg.outSize := by decide

theorem witness_ReservedBits :
    ∃ g g' : Nat → Word, (∀ i, (g i).extractLsb' 6 26 = (g' i).extractLsb' 6 26) ∧ g 0 ≠ g' 0 :=
  ⟨fun _ => 0x3F, fun _ => 0,
    fun _ => (by decide : (0x3F#32).extractLsb' 6 26 = (0#32).extractLsb' 6 26), by decide⟩

theorem witness_OutputMarksChanges : ∃ g g' : Nat → Word, (∀ i, g' i = ~~~ g i) ∧ g 0 ≠ g' 0 :=
  ⟨fun _ => 0, fun _ => ~~~ 0, fun _ => rfl, by decide⟩

theorem witness_PackedLength : ([1, 2, 3, 4] : List Word).length = 4 * 1 ∧ 0 ≤ 1 := by decide

theorem witness_PacketBytes :
    ∃ g g' : Nat → Word, (∀ i, i < 4 → g (4 * 1 + i) = g' (4 * 1 + i)) ∧
      (1 ≠ 0 → (g (4 * 1 - 1)).getLsbD 6 = (g' (4 * 1 - 1)).getLsbD 6) ∧ g 3 ≠ g' 3 :=
  ⟨fun _ => 0, fun i => if i = 3 then 0x80 else 0, by intro i h; simp; omega, by intro _; decide, by decide⟩

/-- A state whose `OUT` holds the packed bytes of four zero words. -/
theorem witness_OutputBits :
    let s : State := { State.reset with out := (List.range 13).map fun j => (j, 0#8) }
    (∀ j, j < 13 * 1 → s.out.read j = some (outByte (fun _ => 0) j)) ∧ 103 < 104 * 1 := by decide

/-! ### States of the invariant -/

/-- The buffers and the hardware's turns of a small state. -/
theorem inv_encoding_first : Inv (encoding 1 0 0 0 0x20 0x20) where
  params := by unfold LParams; decide
  buffers := ⟨by decide, by decide, by decide⟩
  hardware := by decide
  phase := by decide
  count := by intro _; unfold LCount; decide
  notBoth := by decide
  encode := fun _ => ⟨by decide, by decide, by decide, ⟨by decide, by decide, by decide, by decide, by decide, by decide⟩⟩
  pack := fun h => by cases h
  finished := fun h => by cases h

/-- The last bit of a pass of one packet. -/
def lastBitState : State := packing 3 0x20203700 6 false 0b01011001 7 12

theorem inv_lastBitState : Inv lastBitState where
  params := by unfold LParams; decide
  buffers := ⟨by decide, by decide, by decide⟩
  hardware := by decide
  phase := by decide
  count := by intro _; unfold LCount; decide
  notBoth := by decide
  encode := fun h => by cases h
  pack := fun _ => ⟨by decide, by decide, by decide, by decide, by decide, by decide, by decide⟩
  finished := fun h => by cases h

/-- What a finished pass of 16 packets leaves, after the host has written another packet count. -/
def finishedState : State :=
  { State.reset with
    pktCount := 1, done := true, blk := 64, mptr := 64, widx := 64, optr := 208
    msg := [(0, 1), (1, 2), (2, 3), (3, 4)], turns := [.host (.writeReg .ctrl 0xFFFF)] }

theorem inv_finishedState : Inv finishedState where
  params := by unfold LParams; decide
  buffers := ⟨by decide, by decide, by decide⟩
  hardware := by decide
  phase := by decide
  count := fun h => absurd rfl h
  notBoth := by decide
  encode := fun h => by cases h
  pack := fun h => by cases h
  finished := fun _ _ => ⟨16, by decide, by decide, by decide, by decide, by decide, by decide, by decide, by decide⟩

/-- A launch, after an earlier pass, with the value written to `CTRL` whose reserved bits are all set. -/
theorem launch_finishedState : Launch finishedState where
  idle := rfl
  count := by unfold LCount; decide
  msg := by unfold LMsg; decide
  params := by unfold LParams; decide

/-- The hypotheses of `FinishSetsDoneAndClearsBusy`'s clauses. -/
theorem witness_Finish :
    Inv lastBitState ∧ lastBitState.phase = .pack ∧ lastBitState.pos = 6#5 ∧
      lastBitState.widx.toNat + 1 = 4 * lastBitState.pktCount.toNat ∧ ∃ t, exec (.packBit 0) lastBitState = .next t :=
  ⟨inv_lastBitState, rfl, rfl, by decide, ⟨_, rfl⟩⟩

/-- Busy; idle with no packets and with one too many; idle with one packet and with the most. -/
theorem witness_Start :
    (0xFFFF#16).getLsbD 0 = true ∧ lastBitState.phase ≠ .idle ∧ State.reset.phase = .idle ∧ ¬ LCount State.reset ∧
      ¬ LCount { State.reset with pktCount := 17 } ∧ LCount { State.reset with pktCount := 1 } ∧
      LCount { State.reset with pktCount := 16 } := by
  unfold LCount; decide

theorem witness_IdleCore : State.reset.phase = .idle ∧ State.reset.turns = [] := ⟨rfl, rfl⟩

theorem witness_ReservedPhase :
    { State.reset with phase := .reserved }.phase = Phase.reserved ∧
      { State.reset with phase := .reserved }.turns = [] := ⟨rfl, rfl⟩

/-- Each phase, and each kind of turn, with a selector that decodes. -/
theorem witness_StepRuns :
    State.reset.turns = [] ∧ decode (.seq State.reset.sel) = .ok (.noStep 0) ∧
      decode (.seq lastBitState.sel) = .ok (.packBit 0) ∧ decode (.seq (encoding 1 3 0 2 0 0).sel) = .ok .encChd ∧
      decode (.seq { State.reset with phase := .reserved }.sel) = .ok (.reserved 0) ∧
      decode (.ctrl 0x0001#16) = .ok (.start 0) ∧ decode (.ctrl 0x0002#16) = .error .startBitClear ∧
      finishedState.turns = [.host (.writeReg .ctrl 0xFFFF)] :=
  ⟨rfl, rfl, rfl, rfl, rfl, rfl, rfl, rfl⟩

/-- Each of the four changes of `PHASE`, and reset. -/
theorem witness_PhaseChanges :
    (∀ u ∈ finishedState.turns, u.isHardware = true) ∧
      fieldOf (step finishedState) (·.phase) = some .encode ∧
      fieldOf (step (encoding 1 3 0 2 0 0)) (·.phase) = some .pack ∧
      fieldOf (step lastBitState) (·.phase) = some .idle ∧
      fieldOf (afterMove .reset lastBitState) (·.phase) = some .idle := by decide

/-- The host's turn while the core is busy, and while it is idle, at a last cell and a first cell that is missing. -/
theorem witness_HostMoves :
    { lastBitState with turns := [.host (.writeReg .pktCount 5)] }.phase ≠ .idle ∧ HostReg.pktCount ≠ .ctrl ∧
      finishedState.phase = .idle ∧ 63 < finishedState.cfg.msgSize ∧ 63 < finishedState.cfg.grpSize ∧
      207 < finishedState.cfg.outSize ∧ finishedState.cfg.msgSize ≤ 64 ∧ finishedState.cfg.grpSize ≤ 64 ∧
      finishedState.cfg.outSize ≤ 208 ∧ lastBitState.grp.read 3 = some 0x20203700#32 ∧
      { State.reset with out := [(0, 0x7E#8)] }.out.read 0 = some 0x7E#8 := by decide

theorem witness_HostMovesWhileBusy :
    let s := { lastBitState with turns := [.host (.readMsg 63)] }
    s.phase ≠ .idle ∧ s.turns = .host (.readMsg 63) :: [] ∧ HostMove.readMsg 63 ≠ .reset ∧ ∃ t, step s = .next t := by
  refine ⟨by decide, rfl, by decide, ⟨_, rfl⟩⟩

theorem witness_LaunchData :
    lastBitState.phase ≠ .idle ∧ (∀ ts, lastBitState.turns ≠ .host .reset :: ts) ∧
      (∃ t, step lastBitState = .next t) ∧ finishedState.phase = .idle ∧ 63 < finishedState.cfg.msgSize :=
  ⟨(by decide), (fun ts h => by cases h), ⟨_, rfl⟩, rfl, (by decide)⟩

/-- Indexes just outside each space, in states no launch reaches, a clause each. -/
theorem witness_MissingCells :
    (encoding 17 64 0 0 0 0).cfg.grpSize ≤ (encoding 17 64 0 0 0 0).blk.toNat ∧
      (encoding 17 2 0 64 0 0).cfg.msgSize ≤ (encoding 17 2 0 64 0 0).mptr.toNat ∧
      ((encoding 17 2 0 63 0 0).mptr.toNat < (encoding 17 2 0 63 0 0).cfg.msgSize ∧
        (encoding 17 2 0 63 0 0).cfg.msgSize ≤ (encoding 17 2 0 63 0 0).mptr.toNat + 1) ∧
      ((encoding 17 66 0 62 0 0).mptr.toNat + 1 < (encoding 17 66 0 62 0 0).cfg.msgSize ∧
        (encoding 17 66 0 62 0 0).cfg.grpSize ≤ (encoding 17 66 0 62 0 0).blk.toNat) ∧
      (packing 64 0 31 false 0 0 0).cfg.grpSize ≤ (packing 64 0 31 false 0 0 0).widx.toNat ∧
      (packing 63 0 31 false 0 7 208).nbits = 7#3 ∧
      (packing 63 0 31 false 0 7 208).widx.toNat < (packing 63 0 31 false 0 7 208).cfg.grpSize ∧
      (packing 63 0 31 false 0 7 208).cfg.outSize ≤ (packing 63 0 31 false 0 7 208).optr.toNat := by decide

/-- `PACK.WORD` one byte short of its output, and its first `PACK.BIT` that stops. -/
theorem witness_PackWordOutOfOutput :
    let s := packing 63 0 31 false 0 6 205
    s.cfg.wf = true ∧ s.pos = 31#5 ∧ s.widx.toNat < s.cfg.grpSize ∧
      s.cfg.outSize < s.optr.toNat + (s.nbits.toNat + 26) / 8 ∧
      ∃ u f, Nat.repeat (fun r => thenDo r (exec (.packBit 0))) 1 (.next (packing 63 0 31 false 0 6 208)) = .next u ∧
        exec (.packBit 0) u = .fault f :=
  ⟨by decide, rfl, by decide, by decide, _, _, rfl, rfl⟩

/-- A step from a state of the invariant, in each phase: the premises of the statements about every step. -/
theorem witness_Steps :
    (Inv (encoding 1 0 0 0 0x20 0x20) ∧ ∃ t, step (encoding 1 0 0 0 0x20 0x20) = .next t) ∧
      (Inv lastBitState ∧ BuffersWf lastBitState ∧ lastBitState.turns = [] ∧ ∃ t, step lastBitState = .next t) ∧
      (Inv finishedState ∧ ∃ t, step finishedState = .next t) :=
  ⟨⟨inv_encoding_first, ⟨_, rfl⟩⟩, ⟨inv_lastBitState, inv_lastBitState.buffers, rfl, ⟨_, rfl⟩⟩,
    ⟨inv_finishedState, ⟨_, rfl⟩⟩⟩

/-- The first block of a pass, its message written, nothing produced yet. -/
def firstBlock : State := { encoding 1 0 0 0 1 2 with msg := [(0, 1), (1, 2), (2, 3), (3, 4)] }

theorem inv_firstBlock : Inv firstBlock where
  params := by unfold LParams; decide
  buffers := ⟨by decide, by decide, by decide⟩
  hardware := by decide
  phase := by decide
  count := by intro _; unfold LCount; decide
  notBoth := by decide
  encode := fun _ => ⟨by decide, by decide, by decide, ⟨by decide, by decide, by decide, by decide, by decide, by decide⟩⟩
  pack := fun h => by cases h
  finished := fun h => by cases h

theorem witness_EncoderStep :
    Inv firstBlock ∧ firstBlock.phase = .encode ∧ firstBlock.turns = [] ∧
      GroupsInv (fun a => BitVec.ofNat 8 (a + 1)) firstBlock ∧ ∃ t, step firstBlock = .next t :=
  ⟨inv_firstBlock, rfl, rfl, ⟨by decide, by decide⟩, ⟨_, rfl⟩⟩

/-- With a host move next: a write of the message, which is ignored. -/
theorem witness_EncoderStep_host :
    let s := { firstBlock with turns := [.host (.writeMsg 0 7), .core] }
    s.phase ≠ .idle ∧ (∀ ts, s.turns ≠ .host .reset :: ts) ∧ s.coreMoves = false ∧
      GroupsInv (fun a => BitVec.ofNat 8 (a + 1)) s ∧ Inv s ∧ ∃ t, step s = .next t :=
  ⟨by decide, (fun ts h => by cases h), rfl, ⟨by decide, by decide⟩, inv_own inv_firstBlock _ (by decide) _ _, ⟨_, rfl⟩⟩

/-- The turn from `ENCODE` to `PACK`, taken by a core step that is listed. -/
theorem witness_EncoderStep_turn :
    let s := { encoding 1 3 0 2 3 4 with turns := [.core] }
    s.coreMoves = true ∧ s.phase = .encode ∧ fieldOf (step s) (·.phase) = some .pack := by decide

/-- The first bit of a pass, its four words written, nothing packed yet. -/
def firstBit : State := { packing 0 1 31 false 0 0 0 with grp := [(0, 1), (1, 1), (2, 1), (3, 1)] }

theorem inv_firstBit : Inv firstBit where
  params := by unfold LParams; decide
  buffers := ⟨by decide, by decide, by decide⟩
  hardware := by decide
  phase := by decide
  count := by intro _; unfold LCount; decide
  notBoth := by decide
  encode := fun h => by cases h
  pack := fun _ => ⟨by decide, by decide, by decide, by decide, by decide, by decide, by decide⟩
  finished := fun h => by cases h

theorem witness_PackerStep :
    Inv firstBit ∧ firstBit.phase = .pack ∧ firstBit.turns = [] ∧ OutInv (fun _ => 1) firstBit ∧
      ∃ t, step firstBit = .next t :=
  ⟨inv_firstBit, rfl, rfl, ⟨by decide, by decide, by decide, by decide⟩, ⟨_, rfl⟩⟩

/-- With a host move next: a `START`, which is ignored. -/
theorem witness_PackerStep_host :
    let s := { firstBit with turns := [.host (.writeReg .ctrl 1)] }
    s.phase = .pack ∧ (∀ ts, s.turns ≠ .host .reset :: ts) ∧ s.coreMoves = false ∧ OutInv (fun _ => 1) s ∧ Inv s ∧
      ∃ t, step s = .next t :=
  ⟨rfl, (fun ts h => by cases h), rfl, ⟨by decide, by decide, by decide, by decide⟩,
    inv_own inv_firstBit _ (by decide) _ _, ⟨_, rfl⟩⟩

/-- A whole pass left, and one step left. -/
theorem witness_BusyCore :
    Inv firstBlock ∧ firstBlock.phase ≠ .idle ∧ firstBlock.turns = [] ∧ stepsLeft firstBlock = 108 ∧
      Inv lastBitState ∧ lastBitState.phase ≠ .idle ∧ lastBitState.turns = [] ∧ stepsLeft lastBitState = 1 :=
  ⟨inv_firstBlock, by decide, rfl, by decide, inv_lastBitState, by decide, rfl, by decide⟩

theorem witness_Pass :
    Launch finishedState ∧ (0xFFFF#16).getLsbD 0 = true ∧ finishedState.turns = [.host (.writeReg .ctrl 0xFFFF)] ∧
      ∀ a, a < 4 * finishedState.pktCount.toNat → finishedState.msg.read a = some (BitVec.ofNat 8 (a + 1)) :=
  ⟨launch_finishedState, by decide, rfl, by decide⟩

/-- Host moves before and after a core step: an ignored write, an ignored `START`, a read that is unspecified, the last
cell of `OUT`. -/
theorem witness_PassInterleaved :
    let us : List Turn := [.host (.writeMsg 0 9), .core, .host (.writeReg .ctrl 1), .host (.readReg .outLen),
      .host (.readOut 207)]
    let rest : List Turn := []
    let s := { finishedState with turns := .host (.writeReg .ctrl 0xFFFF) :: (us ++ rest) }
    Launch s ∧ (0xFFFF#16).getLsbD 0 = true ∧ (∀ u ∈ us, u.mayJoinPass s.cfg = true) ∧
      us.count .core < 108 * s.pktCount.toNat ∧ rest = [] ∧
      ∀ a, a < 4 * s.pktCount.toNat → s.msg.read a = some (BitVec.ofNat 8 (a + 1)) :=
  ⟨⟨rfl, launch_finishedState.count, launch_finishedState.msg, launch_finishedState.params⟩, by decide, by decide,
    by decide, rfl, by decide⟩

/-- All the core steps of the pass listed, the last one last. -/
theorem witness_PassInterleaved_listed :
    let us : List Turn := .host (.readMsg 63) :: List.replicate 108 .core
    (∀ u ∈ us, u.mayJoinPass finishedState.cfg = true) ∧ us.count .core = 108 * finishedState.pktCount.toNat ∧
      us.getLast? = some .core := by
  refine ⟨fun u h => ?_, ?_, ?_⟩
  · rcases List.mem_cons.1 h with rfl | h
    · decide
    · rw [List.eq_of_mem_replicate h]; rfl
  · rw [List.count_cons_of_ne (by decide), List.count_replicate_self]; rfl
  · rw [List.getLast?_cons, List.getLast?_replicate]; rfl

/-- What may not stand in a pass: reset, a cell that does not exist, an operation by name. -/
theorem test_turns_that_end_a_pass :
    [Turn.host .reset, .host (.readOut 208), .named .finish].map (Turn.mayJoinPass defaultConfig) =
      [false, false, false] := by decide

/-- Two launches with the same data and different leftovers. -/
theorem witness_PassForgets :
    let s' : State := { finishedState with done := false, blk := 0, widx := 0, optr := 0, grp := [(0, 7)] }
    Launch finishedState ∧ Launch s' ∧ (0xFFFF#16).getLsbD 0 = true ∧
      finishedState.turns = [.host (.writeReg .ctrl 0xFFFF)] ∧ s'.turns = [.host (.writeReg .ctrl 0xFFFF)] ∧
      finishedState.cfg = s'.cfg ∧ finishedState.piCode = s'.piCode ∧ finishedState.piCheck = s'.piCheck ∧
      finishedState.pktCount = s'.pktCount ∧
      (∀ a, a < 4 * finishedState.pktCount.toNat → finishedState.msg.read a = s'.msg.read a) ∧ finishedState ≠ s' :=
  ⟨launch_finishedState, ⟨rfl, launch_finishedState.count, launch_finishedState.msg, launch_finishedState.params⟩,
    by decide, rfl, rfl, rfl, rfl, rfl, rfl, fun _ _ => rfl, by decide⟩

end Sys2Proof.Tests
end

section
/-! SUPPORT. One equation per kind of step, with every field of the next state: the encoder's (41_group_encoder.md R81
to R85), the packer's (42_diff_packer.md R98), and the host's turn. The invariants below are proved from these. -/

namespace Sys2Proof.Machine

/-! ### Whose turn -/

/-- A host move that is next in line is what the step performs. -/
theorem step_of_host {s : State} {m : HostMove} {ts : List Turn} (h : s.turns = .host m :: ts) :
    step s = hostMove m { s with turns := ts } := by
  simp only [step, takeTurn, h]

/-! ### The core's step in `ENCODE` -/

/-- The block word the step at `BLK` stores, by the block kind (41_group_encoder.md R82 to R85). -/
def nextWord (s : State) : Word :=
  let hi := msgByte s 0 s.mptr.toNat
  let lo := msgByte s (drawsFor (s.msg.read s.mptr.toNat)) (s.mptr.toNat + 1)
  match kindOf s.blk.toNat with
  | .pi => piWord s.piCode s.piCheck
  | .control => controlWord s.cfg s.seg
  | .charC => charWord s.cfg .c hi lo
  | .charD => charWord s.cfg .d hi lo

/-- The state after one block word, with `d` free values drawn so far: `MPTR` moves in the two character blocks, `SEG`
at the end of a packet, `PHASE` after the last block. -/
def afterBlock (s : State) (d : Nat) : State :=
  { s with
    grp := s.grp.write s.blk.toNat (nextWord s)
    blk := s.blk + 1
    mptr := if 2 ≤ s.blk.toNat % 4 then s.mptr + 2 else s.mptr
    seg := if s.blk.toNat % 4 = 3 then s.seg + 1 else s.seg
    phase := if s.blk.toNat + 1 = 4 * s.pktCount.toNat then .pack else s.phase
    draws := d }

section Fields

variable (s : State) (d : Nat)

theorem afterBlock_grp : (afterBlock s d).grp = s.grp.write s.blk.toNat (nextWord s) := rfl
theorem afterBlock_blk : (afterBlock s d).blk = s.blk + 1 := rfl
theorem afterBlock_mptr : (afterBlock s d).mptr = if 2 ≤ s.blk.toNat % 4 then s.mptr + 2 else s.mptr := rfl
theorem afterBlock_seg : (afterBlock s d).seg = if s.blk.toNat % 4 = 3 then s.seg + 1 else s.seg := rfl
theorem afterBlock_phase :
    (afterBlock s d).phase = if s.blk.toNat + 1 = 4 * s.pktCount.toNat then .pack else s.phase := rfl

end Fields

/-- The core's step in `ENCODE` stores the next block word at an existing cell, whatever the block kind. -/
theorem coreTurn_encode {s t : State} (h : coreTurn s = .next t) (hp : s.phase = .encode) :
    s.blk.toNat < s.cfg.grpSize ∧ ∃ d, t = afterBlock s d := by
  let chars := s.draws + drawsFor (s.msg.read s.mptr.toNat) + drawsFor (s.msg.read (s.mptr.toNat + 1))
  rcases coreTurn_cases h with ⟨hq, _⟩ | ⟨_, hk, hb, rfl⟩ | ⟨_, hk, hb, rfl⟩ | ⟨_, hk, hc⟩ | ⟨_, hk, u, hc, rfl⟩ | ⟨hq, _⟩
  · simp [hp] at hq
  · exact ⟨hb, s.draws, by simp only [afterBlock, nextWord, kindOf, hk]; rfl⟩
  · exact ⟨hb, s.draws, by simp only [afterBlock, nextWord, kindOf, hk]; rfl⟩
  · obtain ⟨_, hb, rfl⟩ := encodeChars_eq_next.1 hc
    exact ⟨hb, chars, by simp only [afterBlock, nextWord, kindOf, hk]; rfl⟩
  · obtain ⟨_, hb, rfl⟩ := encodeChars_eq_next.1 hc
    exact ⟨hb, chars, by simp only [afterBlock, nextWord, kindOf, hk]; rfl⟩
  · simp [hp] at hq

/-! ### The core's step in `PACK` -/

/-- The next protocol bit is the last of the pass (42_diff_packer.md R98, 43_sequencer_host.md R114). -/
abbrev AtLastBit (s : State) : Prop := s.pos = 6#5 ∧ s.widx.toNat + 1 = 4 * s.pktCount.toNat

/-- The state after one protocol bit: a byte goes to `OUT` when it is the eighth, the next word begins after position 6,
and the pass ends after the last one. -/
def afterBit (s : State) : State :=
  { s with
    lastBit := nextRaw s
    acc := nextAcc s
    nbits := s.nbits + 1
    out := if s.nbits = 7#3 then s.out.write s.optr.toNat (nextAcc s) else s.out
    optr := if s.nbits = 7#3 then s.optr + 1 else s.optr
    pos := if s.pos = 6#5 then 31#5 else s.pos - 1
    widx := if s.pos = 6#5 then s.widx + 1 else s.widx
    phase := if AtLastBit s then .idle else s.phase
    done := if AtLastBit s then true else s.done
    draws := s.draws + drawsFor (s.grp.read s.widx.toNat) }

section Fields

variable (s : State)

theorem afterBit_nbits : (afterBit s).nbits = s.nbits + 1 := rfl
theorem afterBit_out :
    (afterBit s).out = if s.nbits = 7#3 then s.out.write s.optr.toNat (nextAcc s) else s.out := rfl
theorem afterBit_optr : (afterBit s).optr = if s.nbits = 7#3 then s.optr + 1 else s.optr := rfl
theorem afterBit_pos : (afterBit s).pos = if s.pos = 6#5 then 31#5 else s.pos - 1 := rfl
theorem afterBit_widx : (afterBit s).widx = if s.pos = 6#5 then s.widx + 1 else s.widx := rfl
theorem afterBit_phase : (afterBit s).phase = if AtLastBit s then .idle else s.phase := rfl
theorem afterBit_done : (afterBit s).done = if AtLastBit s then true else s.done := rfl

end Fields

/-- Moving to the next protocol bit, field by field. -/
theorem nextBit_eq (s : State) :
    nextBit s = { s with
      pos := if s.pos = 6#5 then 31#5 else s.pos - 1
      widx := if s.pos = 6#5 then s.widx + 1 else s.widx
      phase := if AtLastBit s then .idle else s.phase
      done := if AtLastBit s then true else s.done } := by
  rcases nextBit_cases s with ⟨hp, hw, h⟩ | ⟨hp, hw, h⟩ | ⟨hp, h⟩
  · simp [h, hp, hw, finishPass]
  · simp [h, hp, hw]
  · simp [h, hp]

/-- `PACK.BIT` packs one protocol bit where its cells exist, and stops elsewhere. -/
theorem packOne_eq_next_afterBit {s t : State} :
    packOne s = .next t ↔
      s.widx.toNat < s.cfg.grpSize ∧ (s.nbits = 7#3 → s.optr.toNat < s.cfg.outSize) ∧ t = afterBit s := by
  rw [packOne_eq_next]
  by_cases hn : s.nbits = 7#3
  · simp [hn, nextBit_eq, afterBit]
  · simp [hn, nextBit_eq, afterBit]

/-- The core's step in `PACK` packs the next protocol bit. -/
theorem coreTurn_pack {s t : State} (h : coreTurn s = .next t) (hp : s.phase = .pack) :
    (s.nbits = 7#3 → s.optr.toNat < s.cfg.outSize) ∧ t = afterBit s := by
  simp only [coreTurn, decodeSeq_sel, hp] at h
  exact (packOne_eq_next_afterBit.1 h).2

/-- In `IDLE` the core changes nothing (30_encoding.md R58). -/
theorem coreTurn_idle {s : State} (hp : s.phase = .idle) : coreTurn s = .next s := by
  simp only [coreTurn, decodeSeq_sel, hp]; rfl

/-- In the reserved phase the core refuses (30_encoding.md R59 (c)). -/
theorem coreTurn_reserved {s : State} (hp : s.phase = .reserved) : coreTurn s = .refused .reservedPhase := by
  simp only [coreTurn, decodeSeq_sel, hp]; rfl

/-- Everything the core's step can do, one case per phase. -/
theorem coreTurn_phases {s t : State} (h : coreTurn s = .next t) :
    (s.phase = .idle ∧ t = s) ∨
      (s.phase = .encode ∧ s.blk.toNat < s.cfg.grpSize ∧ ∃ d, t = afterBlock s d) ∨
      (s.phase = .pack ∧ (s.nbits = 7#3 → s.optr.toNat < s.cfg.outSize) ∧ t = afterBit s) := by
  cases hp : s.phase with
  | idle => rw [coreTurn_idle hp] at h; cases h; exact .inl ⟨rfl, rfl⟩
  | encode => exact .inr (.inl ⟨rfl, coreTurn_encode h hp⟩)
  | pack => exact .inr (.inr ⟨rfl, coreTurn_pack h hp⟩)
  | reserved => rw [coreTurn_reserved hp] at h; cases h

end Sys2Proof.Machine
end

section
/-! SUPPORT. The invariant of reachable states (10_state.md R28) at reset, and kept by each kind of step. -/

namespace Sys2Proof.Machine

/-! ### Idle states -/

/-- In `IDLE` the invariant says nothing about a pass under way. -/
theorem inv_of_idle {s : State} (hp : s.phase = .idle) (params : LParams s) (buffers : BuffersWf s)
    (hardware : ∀ u ∈ s.turns, u.isHardware = true) (finished : s.done = true → ∃ n, FinishedInv n s) : Inv s where
  params := params
  buffers := buffers
  hardware := hardware
  phase := by simp [hp]
  count := fun hb => absurd hp hb
  notBoth := fun _ => hp
  encode := fun he => by simp [hp] at he
  pack := fun hk => by simp [hp] at hk
  finished := fun _ => finished

theorem inv_reset : Inv State.reset :=
  inv_of_idle rfl (by unfold LParams; decide) ⟨rfl, rfl, rfl⟩ (by simp [State.reset]) (by simp [State.reset])

theorem resetMachine_inv {s : State} (h : Inv s) : Inv (resetMachine s) :=
  inv_of_idle rfl h.params ⟨rfl, rfl, rfl⟩ h.hardware (by simp)

/-! ### Host moves -/

theorem inv_of_onlyAnswers {s t : State} (h : Inv s) (ha : OnlyAnswers s t) : Inv t := by
  rw [show t = _ from ha]
  exact inv_own h s.turns h.hardware t.answer t.draws

/-- What a finished pass leaves is none of the registers and message cells the host then writes. -/
theorem inv_hostOwned {s : State} (h : Inv s) (hp : s.phase = .idle) (pi : BitVec 16) (check : BitVec 10)
    (count : BitVec 8) (msg : Memory 8) (hm : msg.wf s.cfg.msgSize = true) :
    Inv { s with piCode := pi, piCheck := check, pktCount := count, msg := msg } := by
  refine inv_of_idle hp h.params ⟨hm, h.buffers.grp, h.buffers.out⟩ h.hardware fun hd => ?_
  obtain ⟨n, f⟩ := h.finished hp hd
  exact ⟨n, { f with }⟩

/-- An accepted `START` (43_sequencer_host.md R111) begins the pass in the invariant of `ENCODE`. -/
theorem beginPass_inv {s : State} (h : Inv s) (hc : LCount s) : Inv (beginPass s) where
  params := h.params
  buffers := { h.buffers with }
  hardware := h.hardware
  phase := by simp
  count := fun _ => hc
  notBoth := by simp
  encode := fun _ =>
    { blk := by simp; have := hc.1; omega
      seg := by simp
      mptr := by simp [mptrDuring]
      fresh := ⟨rfl, rfl, rfl, rfl, rfl, rfl⟩ }
  pack := by simp
  finished := by simp

theorem hostMove_inv {m : HostMove} {s t : State} (h : Inv s) (hm : hostMove m s = .next t) : Inv t := by
  rcases hostMove_cases hm with ha | ⟨hp, ht⟩ | ⟨hp, a, b, hab, rfl⟩ | ⟨_, hc, _, rfl⟩ | ⟨_, rfl⟩
  · exact inv_of_onlyAnswers h ha
  · rw [ht]
    exact inv_hostOwned h hp _ _ _ s.msg h.buffers.msg
  · exact inv_hostOwned h hp s.piCode s.piCheck s.pktCount _ (Memory.wf_write b hab h.buffers.msg)
  · exact beginPass_inv h ((countOk_iff s).1 hc)
  · exact resetMachine_inv h

/-! ### The core's step in `ENCODE` -/

/-- The two character blocks of a packet consume two characters each (10_state.md R21). -/
theorem mptrDuring_succ (b : Nat) : mptrDuring (b + 1) = mptrDuring b + if 2 ≤ b % 4 then 2 else 0 := by
  unfold mptrDuring
  split_ifs <;> omega

theorem mptrDuring_le (b : Nat) : mptrDuring b ≤ b := by
  unfold mptrDuring
  split <;> omega

@[simp] theorem mptrDuring_four_mul (n : Nat) : mptrDuring (4 * n) = 4 * n := by
  unfold mptrDuring
  split <;> omega

section Encode

variable {s : State} (e : EncodeInv s) (d : Nat)
include e

/-- `BLK` does not wrap: a pass has at most `4 * 255` blocks. -/
theorem EncodeInv.blk_next : (afterBlock s d).blk.toNat = s.blk.toNat + 1 := by
  have hb := e.blk
  have hn := s.pktCount.isLt
  rw [afterBlock_blk]
  bv_omega

/-- `SEG` is the packet's number modulo 16 (10_state.md R20) after the step, too. -/
theorem EncodeInv.seg_next : (afterBlock s d).seg = (afterBlock s d).blk.extractLsb' 2 4 := by
  apply BitVec.eq_of_toNat_eq
  have hs : s.seg.toNat = s.blk.toNat / 4 % 16 := by
    rw [e.seg, BitVec.extractLsb'_toNat, Nat.shiftRight_eq_div_pow]
  rw [BitVec.extractLsb'_toNat, Nat.shiftRight_eq_div_pow, e.blk_next, afterBlock_seg]
  split
  · bv_omega
  · omega

/-- `MPTR` counts the characters consumed (10_state.md R21) after the step, too. -/
theorem EncodeInv.mptr_next : (afterBlock s d).mptr.toNat = mptrDuring (s.blk.toNat + 1) := by
  have hb := e.blk
  have hn := s.pktCount.isLt
  have hm := mptrDuring_le s.blk.toNat
  rw [← e.mptr] at hm
  rw [mptrDuring_succ, ← e.mptr, afterBlock_mptr]
  split
  · bv_omega
  · rfl

/-- Between two blocks of a pass. -/
theorem afterBlock_encodeInv (hn : s.blk.toNat + 1 ≠ 4 * s.pktCount.toNat) : EncodeInv (afterBlock s d) where
  blk := by
    rw [e.blk_next]
    show s.blk.toNat + 1 < 4 * s.pktCount.toNat
    have := e.blk
    omega
  seg := e.seg_next d
  mptr := by rw [e.blk_next, e.mptr_next]
  fresh := { e.fresh with }

/-- Nothing is packed when the pass begins to pack. -/
theorem afterBlock_packedBits : packedBits (afterBlock s d) = 0 := by
  show 26 * s.widx.toNat + (31 - s.pos.toNat) = 0
  rw [e.fresh.widx, e.fresh.pos]
  rfl

/-- The last block turns the pass to `PACK` with the packer's registers as `START` left them (10_state.md R28 (b)). -/
theorem afterBlock_packInv (hn : s.blk.toNat + 1 = 4 * s.pktCount.toNat) : PackInv (afterBlock s d) where
  blk := by rw [e.blk_next]; exact hn
  mptr := by
    rw [e.mptr_next, hn]
    exact mptrDuring_four_mul _
  widx := by
    show s.widx.toNat < 4 * s.pktCount.toNat
    rw [e.fresh.widx, ← hn]
    exact Nat.succ_pos _
  pos := by
    show 6 ≤ s.pos.toNat
    rw [e.fresh.pos]
    decide
  optr := by
    rw [afterBlock_packedBits e]
    exact congrArg BitVec.toNat e.fresh.optr
  nbits := by
    rw [afterBlock_packedBits e]
    exact congrArg BitVec.toNat e.fresh.nbits
  first := fun _ => e.fresh.lastBit

end Encode

/-- The pass turns to `PACK` after its last block and not before (43_sequencer_host.md R112). -/
theorem afterBlock_phase_eq_pack_iff {s : State} (hp : s.phase = .encode) (d : Nat) :
    (afterBlock s d).phase = .pack ↔ s.blk.toNat + 1 = 4 * s.pktCount.toNat := by
  simp [afterBlock_phase, hp]

theorem afterBlock_phase_eq_encode_iff {s : State} (hp : s.phase = .encode) (d : Nat) :
    (afterBlock s d).phase = .encode ↔ s.blk.toNat + 1 ≠ 4 * s.pktCount.toNat := by
  simp [afterBlock_phase, hp]

theorem afterBlock_encode_or_pack {s : State} (hp : s.phase = .encode) (d : Nat) :
    (afterBlock s d).phase = .encode ∨ (afterBlock s d).phase = .pack := by
  rw [afterBlock_phase_eq_encode_iff hp, afterBlock_phase_eq_pack_iff hp]
  exact (em _).symm

theorem afterBlock_inv {s : State} (h : Inv s) (hp : s.phase = .encode) (hb : s.blk.toNat < s.cfg.grpSize) (d : Nat) :
    Inv (afterBlock s d) := by
  have e := h.encode hp
  have busy : s.phase ≠ .idle := by simp [hp]
  have phases := afterBlock_encode_or_pack hp d
  exact
    { params := h.params
      buffers := ⟨h.buffers.msg, Memory.wf_write _ hb h.buffers.grp, h.buffers.out⟩
      hardware := h.hardware
      phase := by rcases phases with hq | hq <;> simp [hq]
      count := fun _ => h.count busy
      notBoth := fun hd => absurd (h.notBoth hd) busy
      encode := fun he => afterBlock_encodeInv e d ((afterBlock_phase_eq_encode_iff hp d).1 he)
      pack := fun hk => afterBlock_packInv e d ((afterBlock_phase_eq_pack_iff hp d).1 hk)
      finished := fun hi => by rcases phases with hq | hq <;> simp [hq] at hi }

/-! ### The core's step in `PACK` -/

section Pack

variable {s : State} (p : PackInv s)
include p

/-- One more bit is packed, also by the last bit of a word and of the pass. -/
theorem PackInv.packedBits_next : packedBits (afterBit s) = packedBits s + 1 := by
  have hw := p.widx
  have hn := s.pktCount.isLt
  have hp := p.pos
  have hq := s.pos.isLt
  rw [packedBits, packedBits, afterBit_widx, afterBit_pos]
  split
  · next h6 =>
    rw [h6]
    bv_omega
  · bv_omega

/-- Fewer bits are packed than a pass has (42_diff_packer.md R100). -/
theorem PackInv.packedBits_lt : packedBits s < 104 * s.pktCount.toNat := by
  have hw := p.widx
  have hp := p.pos
  unfold packedBits
  omega

/-- The next bit is the eighth of its byte. -/
theorem PackInv.nbits_eq_seven_iff : s.nbits = 7#3 ↔ packedBits s % 8 = 7 := by
  rw [← p.nbits]
  bv_omega

/-- `OPTR` counts the whole bytes packed (10_state.md R28 (c)) after the step, too: the `13 * 255` bytes of the longest
pass fit its 12 bits. -/
theorem PackInv.optr_next : (afterBit s).optr.toNat = packedBits (afterBit s) / 8 := by
  have hb := p.packedBits_lt
  have hn := s.pktCount.isLt
  have ho := p.optr
  have h7 := p.nbits_eq_seven_iff
  rw [p.packedBits_next, afterBit_optr]
  split
  · next h =>
    have := h7.1 h
    bv_omega
  · next h =>
    have := mt h7.2 h
    omega

/-- `NBITS` counts the bits waiting in `ACC` (10_state.md R28 (c)) after the step, too. -/
theorem PackInv.nbits_next : (afterBit s).nbits.toNat = packedBits (afterBit s) % 8 := by
  rw [p.packedBits_next, afterBit_nbits]
  have := p.nbits
  bv_omega

/-- Between two bits of a pass. -/
theorem afterBit_packInv (hn : ¬ AtLastBit s) : PackInv (afterBit s) where
  blk := p.blk
  mptr := p.mptr
  widx := by
    have hw := p.widx
    rw [afterBit_widx, show (afterBit s).pktCount = s.pktCount from rfl]
    split
    · next h6 =>
      have : s.widx.toNat + 1 ≠ 4 * s.pktCount.toNat := fun h => hn ⟨h6, h⟩
      bv_omega
    · exact hw
  pos := by
    have hp := p.pos
    rw [afterBit_pos]
    split
    · decide
    · bv_omega
  optr := p.optr_next
  nbits := p.nbits_next
  first := fun h0 => by rw [p.packedBits_next] at h0; cases h0

/-- What the last bit leaves (10_state.md R28 (d)). -/
theorem afterBit_finishedInv (hc : LCount s) (hl : AtLastBit s) : FinishedInv s.pktCount.toNat (afterBit s) := by
  have hw : (afterBit s).widx.toNat = 4 * s.pktCount.toNat := by
    have := s.pktCount.isLt
    rw [afterBit_widx, if_pos hl.1, ← hl.2, BitVec.toNat_add_of_lt]
    · rfl
    · show s.widx.toNat + 1 < 1024
      rw [hl.2]; omega
  have hp : (afterBit s).pos = 31#5 := if_pos hl.1
  have hb : packedBits (afterBit s) = 104 * s.pktCount.toNat := by
    rw [packedBits, hw, hp]
    simp
    omega
  exact
    { atLeastOne := hc.1
      atMost := hc.2
      blk := p.blk
      mptr := p.mptr
      widx := hw
      pos := hp
      nbits := by
        apply BitVec.eq_of_toNat_eq
        rw [p.nbits_next, hb]
        simp
        omega
      optr := by rw [p.optr_next, hb]; omega }

end Pack

theorem afterBit_inv {s : State} (h : Inv s) (hp : s.phase = .pack)
    (ho : s.nbits = 7#3 → s.optr.toNat < s.cfg.outSize) : Inv (afterBit s) := by
  have p := h.pack hp
  have busy : s.phase ≠ .idle := by simp [hp]
  have buffers : BuffersWf (afterBit s) := by
    refine ⟨h.buffers.msg, h.buffers.grp, ?_⟩
    rw [afterBit_out]
    split
    · next h7 => exact Memory.wf_write _ (ho h7) h.buffers.out
    · exact h.buffers.out
  by_cases hl : AtLastBit s
  · exact inv_of_idle (if_pos hl) h.params buffers h.hardware fun _ => ⟨_, afterBit_finishedInv p (h.count busy) hl⟩
  · have phase : (afterBit s).phase = .pack := (if_neg hl).trans hp
    have done : (afterBit s).done = s.done := if_neg hl
    exact
      { params := h.params
        buffers := buffers
        hardware := h.hardware
        phase := by simp [phase]
        count := fun _ => h.count busy
        notBoth := fun hd => absurd (h.notBoth (done ▸ hd)) busy
        encode := fun he => by simp [phase] at he
        pack := fun _ => afterBit_packInv p hl
        finished := fun hi => by simp [phase] at hi }

theorem coreTurn_inv {s t : State} (h : Inv s) (ht : coreTurn s = .next t) : Inv t := by
  rcases coreTurn_phases ht with ⟨_, rfl⟩ | ⟨hp, hb, d, rfl⟩ | ⟨hp, ho, rfl⟩
  · exact h
  · exact afterBlock_inv h hp hb d
  · exact afterBit_inv h hp ho

/-! ### Every step of the two agents -/

/-- A turn taken off the list leaves the invariant. -/
theorem inv_dropTurn {s : State} {ts : List Turn} (h : Inv s) (hts : ts ⊆ s.turns) : Inv { s with turns := ts } :=
  inv_own h ts (fun u hu => h.hardware u (hts hu)) s.answer s.draws

theorem step_inv {s t : State} (h : Inv s) (ht : step s = .next t) : Inv t := by
  rcases step_cases ht with ⟨ts, hs, hc⟩ | ⟨m, ts, hs, hm⟩ | ⟨i, ts, hs, _⟩
  · refine coreTurn_inv (inv_dropTurn h ?_) hc
    rcases hs with ⟨_, rfl⟩ | hs
    · exact List.nil_subset _
    · simp [hs]
  · exact hostMove_inv (inv_dropTurn h (by simp [hs])) hm
  · have := h.hardware (.named i) (by simp [hs])
    cases this

end Sys2Proof.Machine
end

section
/-! SUPPORT. The statements about the invariant and the reset state (10_state.md R27, R28). -/

namespace Sys2Proof.Machine

/-- Settles O49: each kind of turn keeps the invariant (`coreTurn_inv`, `hostMove_inv`), and a turn by name is none of
the two agents'. -/
theorem stepKeepsTheInvariant : Obligations.StepKeepsTheInvariant := fun _ _ => step_inv

/-- Settles O48. -/
theorem resetMeetsTheInvariant : Obligations.ResetMeetsTheInvariant := inv_reset

/-- Settles O41: the registers are R27's table read off the definition, and an empty buffer has no value anywhere. -/
theorem resetStateHasTheTabledValues : Obligations.ResetStateHasTheTabledValues :=
  ⟨rfl, rfl, rfl, rfl, rfl, rfl, rfl, rfl, ⟨rfl, rfl, rfl, rfl, rfl, rfl⟩, rfl,
    fun a => ⟨Memory.read_nil a, Memory.read_nil a, Memory.read_nil a⟩⟩

end Sys2Proof.Machine
end

section
/-! SUPPORT. Who writes the parameters, `PHASE` and the host's registers (10_state.md R10 to R18). -/

namespace Sys2Proof.Machine

/-! ### The parameters are constants (10_state.md R10): every operation, host move and step keeps them -/

theorem OnlyAnswers.cfg_eq {s t : State} (h : OnlyAnswers s t) : t.cfg = s.cfg := by
  rw [show t = _ from h]

theorem packOne_cfg {s t : State} (h : packOne s = .next t) : t.cfg = s.cfg := by
  obtain ⟨_, _, rfl⟩ := packOne_eq_next_afterBit.1 h
  rfl

theorem packMany_cfg {n : Nat} {s t : State} (h : packMany n s = .next t) : t.cfg = s.cfg := by
  induction n generalizing s with
  | zero => cases h; rfl
  | succ n ih =>
    obtain ⟨u, hu, h⟩ := thenDo_eq_next.1 h
    rw [ih h, packOne_cfg hu]

theorem encodeChars_cfg {o : Offset} {s t : State} (h : encodeChars o s = .next t) : t.cfg = s.cfg := by
  obtain ⟨_, _, rfl⟩ := encodeChars_eq_next.1 h
  rfl

theorem execStart_cfg {rsv : BitVec 15} {s t : State} (h : execStart rsv s = .next t) : t.cfg = s.cfg := by
  unfold execStart at h
  split at h
  · cases h; rfl
  · split at h
    · cases h; rfl
    · cases h

theorem exec_cfg {i : Instr} {s t : State} (h : exec i s = .next t) : t.cfg = s.cfg := by
  cases i with
  | encPi | encCtrl =>
    obtain ⟨_, rfl⟩ := store_advance_eq_next.1 h
    rfl
  | encChc => exact encodeChars_cfg h
  | encChd =>
    obtain ⟨u, hu, h⟩ := thenDo_eq_next.1 h
    cases h
    exact (encodeChars_cfg hu :)
  | packBit lo => exact packOne_cfg h
  | packWord => exact packMany_cfg h
  | crcA m | crcB m | crcC m | crcD m | finish | noStep lo => cases h; rfl
  | start rsv => exact execStart_cfg (rsv := rsv) h
  | reserved lo => cases h

theorem hostMove_cfg {m : HostMove} {s t : State} (h : hostMove m s = .next t) : t.cfg = s.cfg := by
  rcases hostMove_cases h with ha | ⟨_, ht⟩ | ⟨_, a, b, _, rfl⟩ | ⟨_, _, _, rfl⟩ | ⟨_, rfl⟩
  · exact ha.cfg_eq
  · rw [ht]
  · rfl
  · rfl
  · rfl

theorem step_cfg {s t : State} (h : step s = .next t) : t.cfg = s.cfg := by
  rcases step_cases h with ⟨ts, _, hc⟩ | ⟨m, ts, _, hm⟩ | ⟨i, ts, _, hi⟩
  · exact (exec_cfg hc :)
  · exact (hostMove_cfg hm :)
  · exact (exec_cfg hi :)

/-- Settles O46, for turns by name, too. -/
theorem parametersNeverChange : Obligations.ParametersNeverChange := fun _ _ => step_cfg

/-! ### `PHASE` (10_state.md R18) -/

/-- Settles O35: in the core's step `PHASE` is read off `afterBlock` and `afterBit`, one per phase; in a host move off
its cases. -/
theorem phaseChangesOnlyAtItsFourPlaces : Obligations.PhaseChangesOnlyAtItsFourPlaces := by
  intro s t hw h
  rcases step_cases h with ⟨ts, _, hc⟩ | ⟨m, ts, hs, hm⟩ | ⟨i, ts, hs, _⟩
  · rcases coreTurn_phases hc with ⟨_, rfl⟩ | ⟨hp, _, d, rfl⟩ | ⟨hp, _, rfl⟩
    · exact .inl rfl
    · by_cases hn : s.blk.toNat + 1 = 4 * s.pktCount.toNat
      · exact .inr (.inr (.inl ⟨hp, if_pos hn, hn⟩))
      · exact .inl (if_neg hn)
    · by_cases hl : AtLastBit s
      · exact .inr (.inr (.inr (.inl ⟨hp, if_pos hl, if_pos hl, hl.1, hl.2⟩)))
      · exact .inl (if_neg hl)
  · rcases hostMove_cases hm with ha | ⟨_, ht⟩ | ⟨_, a, b, _, rfl⟩ | ⟨hi, hc, ⟨v, rfl, hv⟩, rfl⟩ | ⟨rfl, rfl⟩
    · exact .inl (by rw [show t = _ from ha])
    · exact .inl (by rw [ht])
    · exact .inl rfl
    · exact .inr (.inl ⟨hi, rfl, (countOk_iff s).1 hc, v, ts, hs, hv⟩)
    · exact .inr (.inr (.inr (.inr ⟨rfl, ts, hs⟩)))
  · have := hw (.named i) (by simp [hs])
    cases this

/-! ### The host's registers (10_state.md R11 to R17) -/

/-- Settles O36: registers 0 to 2 by their `BUSY` test, `STATUS` and `OUT_LEN` without one. -/
theorem registerWritesFollowOwnership : Obligations.RegisterWritesFollowOwnership := by
  intro s ts r v hs hr
  rw [step_of_host hs]
  cases r with
  | piCode | piCheck | pktCount =>
    constructor
    · intro hp
      simp [hostMove, hostWriteReg, State.busy, hp]
    · intro hp
      simp [hostMove, hostWriteReg, State.busy, hp]
  | ctrl => exact absurd rfl hr
  | status | outLen => exact ⟨fun _ => rfl, fun _ => rfl⟩

/-- `STATUS` as a number (10_state.md R16): `BUSY + 2 * DONE`. -/
theorem status_toNat (s : State) :
    s.status.toNat = (if s.phase ≠ .idle then 1 else 0) + (if s.done then 2 else 0) := by
  have hb : (if s.phase ≠ .idle then 1 else 0) = s.busy.toNat := by
    rw [State.busy]
    cases s.phase <;> rfl
  rw [hb, State.status]
  cases s.done <;> cases s.busy <;> rfl

/-- Settles O37: one case per register; `OUT_LEN` by whether the core is busy. -/
theorem registerReadsGiveTheCurrentValue : Obligations.RegisterReadsGiveTheCurrentValue := by
  intro s ts r hs
  rw [step_of_host hs]
  cases r with
  | piCode => exact ⟨_, s.piCode, rfl, rfl, rfl, rfl⟩
  | piCheck =>
    exact ⟨_, s.piCheck.setWidth 16, rfl, rfl, rfl, BitVec.toNat_setWidth_of_le (by decide)⟩
  | pktCount =>
    exact ⟨_, s.pktCount.setWidth 16, rfl, rfl, rfl, BitVec.toNat_setWidth_of_le (by decide)⟩
  | ctrl => exact ⟨_, 0#16, rfl, rfl, rfl, rfl⟩
  | status => exact ⟨_, s.status, rfl, rfl, rfl, status_toNat s⟩
  | outLen =>
    have value (x : BitVec 12) : (x.setWidth 16).toNat = x.toNat := BitVec.toNat_setWidth_of_le (by decide)
    by_cases hp : s.phase = .idle
    · refine ⟨giveAnswer (.reg (s.optr.setWidth 16)) { s with turns := ts }, s.optr.setWidth 16, ?_, rfl, rfl, ?_⟩
      · exact if_neg (by simpa using hp)
      · exact ⟨by rw [value]; exact s.optr.isLt, fun _ => value s.optr⟩
    · let x : BitVec 12 := Config.freeValue 12 s.draws
      refine ⟨giveAnswer (.reg (x.setWidth 16)) (draw 12 { s with turns := ts }).2, x.setWidth 16, ?_, rfl, rfl, ?_⟩
      · exact if_pos (by simpa using hp)
      · exact ⟨by rw [value]; exact x.isLt, fun hi => absurd hi hp⟩

end Sys2Proof.Machine
end

section
/-! SUPPORT. What the core has produced so far (10_state.md R28 (b), (c)): the block words in `GRP` and the packed bits
in `OUT` and `ACC` are the closed form's, and each step keeps them. -/

namespace Sys2Proof.Machine

/-! ### Block words -/

/-- A written message cell is read as it is, however many free values were drawn. -/
theorem msgByte_of_written {s : State} {k a : Nat} {b : Byte} (h : s.msg.read a = some b) : msgByte s k a = b := by
  rw [msgByte, h, Option.getD_some]

theorem EncodeInv.seg_eq {s : State} (e : EncodeInv s) : s.seg = BitVec.ofNat 4 (s.blk.toNat / 4) := by
  rw [e.seg, BitVec.extractLsb', Nat.shiftRight_eq_div_pow]

/-- The word the encoder stores next is the closed form's (41_group_encoder.md R86). -/
theorem nextWord_eq_blockAt {msg : Nat → Byte} {s : State} (e : EncodeInv s) (g : GroupsInv msg s) :
    nextWord s = blockAt s.cfg s.piCode s.piCheck msg s.blk.toNat := by
  have hb := e.blk
  have hm : s.mptr.toNat = 4 * (s.blk.toNat / 4) + (if s.blk.toNat % 4 = 3 then 2 else 0) := e.mptr
  have kinds : s.blk.toNat % 4 = 0 ∨ s.blk.toNat % 4 = 1 ∨ s.blk.toNat % 4 = 2 ∨ s.blk.toNat % 4 = 3 := by omega
  have written (k a : Nat) (ha : a < 4 * s.pktCount.toNat) : msgByte s k a = msg a :=
    msgByte_of_written (g.message a ha)
  rcases kinds with hk | hk | hk | hk <;> simp only [nextWord, blockAt, kindOf, hk]
  · rw [e.seg_eq]
  · rw [hk, if_neg (by decide), Nat.add_zero] at hm
    rw [written _ _ (by omega), written _ _ (by omega), hm]
  · rw [hk, if_pos rfl] at hm
    rw [written _ _ (by omega), written _ _ (by omega), hm]

theorem afterBlock_groupsInv {msg : Nat → Byte} {s : State} (e : EncodeInv s) (g : GroupsInv msg s) (d : Nat) :
    GroupsInv msg (afterBlock s d) where
  message := g.message
  produced := fun i hi => by
    rw [e.blk_next] at hi
    rw [afterBlock_grp, Memory.read_write]
    split
    · next h =>
      rw [h, nextWord_eq_blockAt e g]
      rfl
    · exact g.produced i (by omega)

/-- A turn taken off the list leaves what is known of a pass under way. -/
theorem EncodeInv.dropTurn {s : State} (e : EncodeInv s) (ts : List Turn) : EncodeInv { s with turns := ts } :=
  { e with fresh := { e.fresh with } }

theorem PackInv.dropTurn {s : State} (p : PackInv s) (ts : List Turn) : PackInv { s with turns := ts } := { p with }

theorem coreTurn_groupsInv {msg : Nat → Byte} {s t : State} (e : s.phase = .encode → EncodeInv s)
    (g : GroupsInv msg s) (hc : coreTurn s = .next t) : GroupsInv msg t := by
  rcases coreTurn_phases hc with ⟨_, rfl⟩ | ⟨hp, _, d, rfl⟩ | ⟨_, _, rfl⟩
  · exact g
  · exact afterBlock_groupsInv (e hp) g d
  · exact { g with }

/-- `BLK` counts the core's steps in `ENCODE`, and stands still otherwise. -/
theorem coreTurn_blk {s t : State} (e : s.phase = .encode → EncodeInv s) (hc : coreTurn s = .next t) :
    t.blk.toNat = s.blk.toNat + if s.phase = .encode then 1 else 0 := by
  rcases coreTurn_phases hc with ⟨hp, rfl⟩ | ⟨hp, _, d, rfl⟩ | ⟨hp, _, rfl⟩
  · simp [hp]
  · simpa [hp] using (e hp).blk_next d
  · simp [hp, afterBit]

/-- With all the words of the pass in `GRP` and no bit packed, the packer's part holds. -/
theorem outInv_of_fresh {g : Nat → Word} {s : State} (hw : ∀ i, i < 4 * s.pktCount.toNat → s.grp.read i = some (g i))
    (hb : packedBits s = 0) (hl : s.lastBit = false) : OutInv g s where
  words := hw
  bytes := by simp [hb]
  waiting := by simp [hb]
  last := by rw [hb, hl]; rfl

/-- The turn from `ENCODE` to `PACK` (43_sequencer_host.md R112) hands the packer the closed form's words. -/
theorem coreTurn_handOver {msg : Nat → Byte} {s t : State} (e : EncodeInv s) (g : GroupsInv msg s)
    (hc : coreTurn s = .next t) (hp : s.phase = .encode) (ht : t.phase = .pack) :
    OutInv (blockAt t.cfg t.piCode t.piCheck msg) t ∧ packedBits t = 0 := by
  obtain ⟨_, d, rfl⟩ := coreTurn_encode hc hp
  have last := (afterBlock_phase_eq_pack_iff hp d).1 ht
  have all := (afterBlock_packInv e d last).blk
  have fresh := afterBlock_packedBits e d
  have produced := (afterBlock_groupsInv e g d).produced
  exact ⟨outInv_of_fresh (fun i hi => produced i (all ▸ hi)) fresh e.fresh.lastBit, fresh⟩

/-- Settles O51: a step of the busy machine is the core's, for which the lemmas above say each part, or only reads. -/
theorem encoderStepKeepsTheProducedWords : Obligations.EncoderStepKeepsTheProducedWords := by
  intro msg s t h hb hr g hs
  rcases step_busy_cases h.hardware hb hr hs with ⟨hm, ts, hc⟩ | ⟨hm, ts, ha⟩
  · have e := fun hp => (h.encode hp).dropTurn ts
    have g := groupsInv_own g ts s.answer s.draws
    refine ⟨coreTurn_groupsInv e g hc, ?_, fun hp => coreTurn_handOver (e hp) g hc hp⟩
    simpa [hm] using coreTurn_blk e hc
  · rw [show t = _ from ha]
    refine ⟨groupsInv_own g _ _ _, by simp [hm], fun hp ht => ?_⟩
    rw [show s.phase = .pack from ht] at hp
    cases hp

/-! ### Packed bits -/

section Pack

variable {g : Nat → Word} {s : State} (p : PackInv s) (o : OutInv g s)
include p o

/-- The bit packed next is the closed form's protocol bit (42_diff_packer.md R97). -/
theorem nextRaw_eq_protoBit : nextRaw s = protoBit g (packedBits s) := by
  have hp := p.pos
  have hq := s.pos.isLt
  have word : packedBits s / 26 = s.widx.toNat := by unfold packedBits; omega
  have position : 31 - packedBits s % 26 = s.pos.toNat := by unfold packedBits; omega
  rw [nextRaw, protocolBit, grpWord, o.words _ p.widx, Option.getD_some, protoBit, word, position]

/-- `ACC` after the step: the closed form's newest output bits, the newest at the bottom (42_diff_packer.md R98). -/
theorem nextAcc_bit {k : Nat} (hk : k ≤ packedBits s % 8) :
    (nextAcc s).getLsbD k = outBit g (packedBits s - k) := by
  cases k with
  | zero => rw [nextAcc, shiftIn_bit_zero, nextRaw_eq_protoBit p o, o.last]; rfl
  | succ k =>
    rw [nextAcc, shiftIn_bit_succ _ _ (by omega), o.waiting k (by omega), Nat.sub_sub, Nat.add_comm 1 k]

/-- The eighth bit completes the closed form's byte (42_diff_packer.md R100). -/
theorem nextAcc_eq_outByte (h7 : packedBits s % 8 = 7) : nextAcc s = outByte g (packedBits s / 8) := by
  refine BitVec.eq_of_getLsbD_eq fun i hi => ?_
  have age : packedBits s - i = 8 * (packedBits s / 8) + (7 - i) := by omega
  have bit := byteOf_bit (fun k => outBit g (8 * (packedBits s / 8) + k)) (k := 7 - i) (by omega)
  rw [nextAcc_bit p o (by omega), age, ← bit, Nat.sub_sub_self (by omega)]
  rfl

theorem afterBit_outInv : OutInv g (afterBit s) where
  words := o.words
  bytes := fun j hj => by
    rw [p.packedBits_next] at hj
    rw [afterBit_out]
    have hs := p.nbits_eq_seven_iff
    split
    · next h7 =>
      rw [Memory.read_write, p.optr]
      split
      · next hj => rw [hj, nextAcc_eq_outByte p o (hs.1 h7)]
      · exact o.bytes j (by omega)
    · next h7 =>
      have := mt hs.2 h7
      exact o.bytes j (by omega)
  waiting := fun k hk => by
    rw [p.packedBits_next] at hk ⊢
    exact nextAcc_bit p o (by omega)
  last := by
    rw [p.packedBits_next]
    exact nextRaw_eq_protoBit p o

end Pack

/-- Settles O52: the core's step in `PACK` is `afterBit`, a host move only reads. -/
theorem packerStepKeepsThePackedBytes : Obligations.PackerStepKeepsThePackedBytes := by
  intro g s t h hp hr o hs
  rcases step_busy_cases h.hardware (by simp [hp]) hr hs with ⟨hm, ts, hc⟩ | ⟨hm, ts, ha⟩
  · have p := (h.pack hp).dropTurn ts
    obtain ⟨_, rfl⟩ := coreTurn_pack hc hp
    refine ⟨afterBit_outInv p (outInv_own o ts s.answer s.draws), ?_⟩
    rw [p.packedBits_next, if_pos hm]
    rfl
  · rw [show t = _ from ha]
    exact ⟨outInv_own o _ _ _, by simp [hm, packedBits]⟩

end Sys2Proof.Machine
end

section
/-! SUPPORT. What no operation of the core writes (20_memory.md R42) and what each keeps of the buffers (R30), and the
host's accesses to the buffers (R38). -/

namespace Sys2Proof.Machine

/-! ### Every operation: what the host owns stays, the buffers stay canonical -/

/-- An operation from `s` to `t` leaves what the host owns, and keeps the buffers canonical. -/
structure OperationFrame (s t : State) : Prop where
  owned : hostOwned t = hostOwned s
  buffers : BuffersWf s → BuffersWf t

theorem OperationFrame.refl (s : State) : OperationFrame s s := ⟨rfl, id⟩

theorem OperationFrame.trans {s t u : State} (f : OperationFrame s t) (g : OperationFrame t u) : OperationFrame s u :=
  ⟨g.owned.trans f.owned, g.buffers ∘ f.buffers⟩

/-- A step that writes registers only. -/
theorem OperationFrame.of_registers {s t : State} (owned : hostOwned t = hostOwned s) (cfg : t.cfg = s.cfg)
    (grp : t.grp = s.grp) (out : t.out = s.out) : OperationFrame s t := by
  have msg : t.msg = s.msg := congrArg (·.2.2.2) owned
  refine ⟨owned, fun h => ⟨?_, ?_, ?_⟩⟩
  · rw [msg, cfg]; exact h.msg
  · rw [grp, cfg]; exact h.grp
  · rw [out, cfg]; exact h.out

theorem encodeChars_frame {o : Offset} {s t : State} (h : encodeChars o s = .next t) : OperationFrame s t := by
  obtain ⟨_, hb, rfl⟩ := encodeChars_eq_next.1 h
  exact ⟨rfl, fun w => ⟨w.msg, Memory.wf_write _ hb w.grp, w.out⟩⟩

theorem packOne_frame {s t : State} (h : packOne s = .next t) : OperationFrame s t := by
  obtain ⟨_, ho, rfl⟩ := packOne_eq_next_afterBit.1 h
  refine ⟨rfl, fun w => ⟨w.msg, w.grp, ?_⟩⟩
  rw [afterBit_out]
  split
  · next h7 => exact Memory.wf_write _ (ho h7) w.out
  · exact w.out

theorem packMany_frame {n : Nat} {s t : State} (h : packMany n s = .next t) : OperationFrame s t := by
  induction n generalizing s with
  | zero => cases h; exact .refl _
  | succ n ih =>
    obtain ⟨u, hu, h⟩ := thenDo_eq_next.1 h
    exact (packOne_frame hu).trans (ih h)

theorem execStart_frame {rsv : BitVec 15} {s t : State} (h : execStart rsv s = .next t) : OperationFrame s t := by
  unfold execStart at h
  split at h
  · cases h; exact .refl s
  · split at h
    · cases h; exact .of_registers rfl rfl rfl rfl
    · cases h

/-- No operation writes what the host owns, and each stores only to existing cells of `GRP` and `OUT`. -/
theorem exec_frame {i : Instr} {s t : State} (h : exec i s = .next t) : OperationFrame s t := by
  cases i with
  | encPi | encCtrl =>
    obtain ⟨hb, rfl⟩ := store_advance_eq_next.1 h
    exact ⟨rfl, fun w => ⟨w.msg, Memory.wf_write _ hb w.grp, w.out⟩⟩
  | encChc => exact encodeChars_frame h
  | encChd =>
    obtain ⟨u, hu, h⟩ := thenDo_eq_next.1 h
    cases h
    exact (encodeChars_frame hu).trans (.of_registers rfl rfl rfl rfl)
  | packBit lo => exact packOne_frame h
  | packWord => exact packMany_frame h
  | crcA m | crcB m | crcC m | crcD m | finish | noStep lo => cases h; exact .of_registers rfl rfl rfl rfl
  | start rsv => exact execStart_frame (rsv := rsv) h
  | reserved lo => cases h

/-! ### Host moves -/

/-- While the core is busy a host move other than reset only reads (20_memory.md R38). -/
theorem hostMove_busy_onlyAnswers {m : HostMove} {s t : State} (hb : s.phase ≠ .idle) (hr : m ≠ .reset)
    (h : hostMove m s = .next t) : OnlyAnswers s t := by
  rcases hostMove_cases h with ha | ⟨hi, _⟩ | ⟨hi, _⟩ | ⟨hi, _⟩ | ⟨hm, _⟩
  · exact ha
  · exact absurd hi hb
  · exact absurd hi hb
  · exact absurd hi hb
  · exact absurd hm hr

/-- The only cell a host move can write is an existing one of `MSG`; reset empties the buffers. -/
theorem hostMove_buffersWf {m : HostMove} {s t : State} (h : BuffersWf s) (hm : hostMove m s = .next t) :
    BuffersWf t := by
  rcases hostMove_cases hm with ha | ⟨_, ht⟩ | ⟨_, a, b, hab, rfl⟩ | ⟨_, _, _, rfl⟩ | ⟨_, rfl⟩
  · rw [show t = _ from ha]
    exact { h with }
  · rw [ht]
    exact { h with }
  · exact ⟨Memory.wf_write b hab h.msg, h.grp, h.out⟩
  · exact { h with }
  · exact ⟨rfl, rfl, rfl⟩

/-- Settles O47: an operation by `exec_frame`, a host move by `hostMove_buffersWf`. -/
theorem stepKeepsBuffersCanonical : Obligations.StepKeepsBuffersCanonical := by
  intro s t h hs
  rcases step_cases hs with ⟨ts, _, hc⟩ | ⟨m, ts, _, hm⟩ | ⟨i, ts, _, hi⟩
  · exact (exec_frame hc).buffers { h with }
  · exact hostMove_buffersWf (s := { s with turns := ts }) { h with } hm
  · exact (exec_frame hi).buffers { h with }

/-! ### The host's accesses to `MSG` -/

theorem hostWriteMsg_of_lt {a : Nat} {s : State} (b : Byte) (h : a < s.cfg.msgSize) :
    hostWriteMsg a b s = .next (if s.phase = .idle then { s with msg := s.msg.write a b } else s) := by
  rw [hostWriteMsg, writeMsg_of_lt h, thenDo_next]
  by_cases hp : s.phase = .idle
  · simp [hp, State.busy]
  · simp [hp, State.busy]

theorem hostReadMsg_of_lt {a : Nat} {s : State} (h : a < s.cfg.msgSize) :
    hostReadMsg a s = .next (giveAnswer (.byte (msgByte s 0 a)) (orDraw (s.msg.read a) s).2) := by
  rw [hostReadMsg, readMsg_of_lt h, thenDo_next, orDraw_value]
  rfl

/-- Settles O38: the write by its `BUSY` test, the read without one. -/
theorem messageAccessesFollowOwnership : Obligations.MessageAccessesFollowOwnership := by
  constructor
  · intro s ts a b hs ha
    rw [step_of_host hs, hostMove, hostWriteMsg_of_lt (s := { s with turns := ts }) b ha]
    by_cases hp : s.phase = .idle
    · rw [if_pos hp]
      exact ⟨_, rfl, rfl, fun hb => absurd hp hb, fun _ =>
        ⟨Memory.read_write_same s.msg a b, fun _ hne => Memory.read_write_other s.msg b hne⟩⟩
    · rw [if_neg hp]
      exact ⟨_, rfl, rfl, fun _ => rfl, fun hi => absurd hi hp⟩
  · intro s ts a hs ha
    rw [step_of_host hs, hostMove, hostReadMsg_of_lt (s := { s with turns := ts }) ha]
    exact ⟨_, rfl, onlyAnswers_orDraw _ _ _, rfl⟩

/-! ### The host's accesses to `GRP` and `OUT` -/

theorem hostWriteGrp_of_lt {a : Nat} {s : State} (w : Word) (h : a < s.cfg.grpSize) : hostWriteGrp a w s = .next s := by
  rw [hostWriteGrp, writeGrp_of_lt h, thenDo_next]

theorem hostWriteOut_of_lt {a : Nat} {s : State} (b : Byte) (h : a < s.cfg.outSize) : hostWriteOut a b s = .next s := by
  rw [hostWriteOut, writeOut_of_lt h, thenDo_next]

/-- From `s` to `t` a cell that only the core writes is read: nothing but the answer and the count of free values
changes, and while the core is idle a written cell answers its value. -/
def AnswersCell {w : Nat} (answer : BitVec w → Answer) (c : Option (BitVec w)) (s t : State) : Prop :=
  ∃ x, t = { s with answer := some (answer x), draws := t.draws } ∧ (s.phase = .idle → ∀ v, c = some v → x = v)

/-- A free value is an answer while the core is busy. -/
theorem answersCell_draw {w : Nat} (answer : BitVec w → Answer) (c : Option (BitVec w)) {s : State}
    (hb : s.busy = true) : AnswersCell answer c s (giveAnswer (answer (draw w s).1) (draw w s).2) :=
  ⟨_, rfl, fun hi => absurd hi ((busy_iff s).1 hb)⟩

/-- The cell, or a free value where nothing is written, is an answer at any time. -/
theorem answersCell_orDraw {w : Nat} (answer : BitVec w → Answer) (c : Option (BitVec w)) (s : State) :
    AnswersCell answer c s (giveAnswer (answer (orDraw c s).1) (orDraw c s).2) := by
  refine ⟨(orDraw c s).1, onlyAnswers_orDraw _ c s, ?_⟩
  rintro - v rfl
  rfl

theorem hostReadGrp_answersCell {a : Nat} {s : State} (h : a < s.cfg.grpSize) :
    ∃ t, hostReadGrp a s = .next t ∧ AnswersCell .word (s.grp.read a) s t := by
  rw [hostReadGrp, readGrp_of_lt h, thenDo_next]
  split
  · next hb => exact ⟨_, rfl, answersCell_draw _ _ hb⟩
  · exact ⟨_, rfl, answersCell_orDraw _ _ s⟩

theorem hostReadOut_answersCell {a : Nat} {s : State} (h : a < s.cfg.outSize) :
    ∃ t, hostReadOut a s = .next t ∧ AnswersCell .byte (s.out.read a) s t := by
  rw [hostReadOut, readOut_of_lt h, thenDo_next]
  split
  · next hb => exact ⟨_, rfl, answersCell_draw _ _ hb⟩
  · exact ⟨_, rfl, answersCell_orDraw _ _ s⟩

/-- Settles O39: a write is dropped after its bounds check, a read answers the cell (`AnswersCell`). -/
theorem outputBuffersAreReadOnlyToTheHost : Obligations.OutputBuffersAreReadOnlyToTheHost := by
  refine ⟨fun s ts a w hs ha => ?_, fun s ts a b hs ha => ?_, fun s ts a hs ha => ?_, fun s ts a hs ha => ?_⟩
  · exact (step_of_host hs).trans (hostWriteGrp_of_lt w ha)
  · exact (step_of_host hs).trans (hostWriteOut_of_lt b ha)
  · obtain ⟨t, ht, x, hx⟩ := hostReadGrp_answersCell (s := { s with turns := ts }) ha
    exact ⟨t, x, (step_of_host hs).trans ht, hx⟩
  · obtain ⟨t, ht, x, hx⟩ := hostReadOut_answersCell (s := { s with turns := ts }) ha
    exact ⟨t, x, (step_of_host hs).trans ht, hx⟩

/-! ### What a pass reads -/

/-- While the core is busy, no step but reset changes what the host owns. -/
theorem step_busy_hostOwned {s t : State} (hb : s.phase ≠ .idle) (hr : ∀ ts, s.turns ≠ .host .reset :: ts)
    (h : step s = .next t) : hostOwned t = hostOwned s := by
  rcases step_cases h with ⟨ts, _, hc⟩ | ⟨m, ts, hs, hm⟩ | ⟨i, ts, _, hi⟩
  · exact ((exec_frame hc).owned :)
  · have hne : m ≠ .reset := by
      rintro rfl
      exact hr ts hs
    rw [show t = _ from hostMove_busy_onlyAnswers (s := { s with turns := ts }) hb hne hm]
    rfl
  · exact ((exec_frame hi).owned :)

/-- Settles O43: busy by `step_busy_hostOwned`, the ROMs by `step_cfg`, idle writes by the ownership statements of the
registers and of `MSG`. -/
theorem launchDataIsFixedWhileBusy : Obligations.LaunchDataIsFixedWhileBusy := by
  refine ⟨fun s t => step_busy_hostOwned, fun s t => step_cfg, fun s ts v hp => ?_, fun s ts a b hp hs ha => ?_⟩
  · have write (r : HostReg) (hr : r ≠ .ctrl) (hs : s.turns = .host (.writeReg r v) :: ts) :=
      (registerWritesFollowOwnership s ts r v hs hr).2 hp
    exact ⟨fun hs => ⟨_, write .piCode (by decide) hs, rfl⟩, fun hs => ⟨_, write .piCheck (by decide) hs, rfl⟩,
      fun hs => ⟨_, write .pktCount (by decide) hs, rfl⟩⟩
  · obtain ⟨t, ht, -, -, hidle⟩ := messageAccessesFollowOwnership.1 s ts a b hs ha
    exact ⟨t, ht, (hidle hp).1⟩

end Sys2Proof.Machine
end

section
/-! SUPPORT. Where an operation stops on a cell that does not exist (20_memory.md R30, entry 7). -/

namespace Sys2Proof.Machine

theorem readMsg_missing {a : Nat} {s : State} (h : s.cfg.msgSize ≤ a) : readMsg a s = .fault (.noSuchCell .msg a) :=
  if_neg (Nat.not_lt.2 h)

theorem readGrp_missing {a : Nat} {s : State} (h : s.cfg.grpSize ≤ a) : readGrp a s = .fault (.noSuchCell .grp a) :=
  if_neg (Nat.not_lt.2 h)

theorem writeGrp_missing {a : Nat} {w : Word} {s : State} (h : s.cfg.grpSize ≤ a) :
    writeGrp a w s = .fault (.noSuchCell .grp a) :=
  if_neg (Nat.not_lt.2 h)

theorem writeOut_missing {a : Nat} {b : Byte} {s : State} (h : s.cfg.outSize ≤ a) :
    writeOut a b s = .fault (.noSuchCell .out a) :=
  if_neg (Nat.not_lt.2 h)

/-! ### The encoder's operations -/

section Encoder

variable {s : State}

/-- `ENC.PI` and `ENC.CTRL` in one, as in `store_advance_eq_next`. -/
theorem store_advance_missing {x : Word} (h : s.cfg.grpSize ≤ s.blk.toNat) :
    (thenDo (writeGrp s.blk.toNat x s) fun u => .next (advance u)) =
      (.fault (.noSuchCell .grp s.blk.toNat) : Result State) := by
  rw [writeGrp_missing h, thenDo_fault]

theorem readChars_missing_first (h : s.cfg.msgSize ≤ s.mptr.toNat) :
    readChars s = .fault (.noSuchCell .msg s.mptr.toNat) := by
  rw [readChars, readMsg_missing h, thenDo_fault]

theorem readChars_missing_second (h : s.mptr.toNat < s.cfg.msgSize) (h' : s.cfg.msgSize ≤ s.mptr.toNat + 1) :
    readChars s = .fault (.noSuchCell .msg (s.mptr.toNat + 1)) := by
  rw [readChars, readMsg_of_lt h, thenDo_next, readMsg_missing (by simpa using h'), thenDo_fault]

/-- A stop of the two reads is the stop of both character blocks. -/
theorem encodeChars_of_readChars_fault {f : Fault} (o : Offset) (h : readChars s = .fault f) :
    encodeChars o s = .fault f := by
  rw [encodeChars, h, thenDo_fault]

theorem encodeChars_missing_word (o : Offset) (h : s.mptr.toNat + 1 < s.cfg.msgSize)
    (hb : s.cfg.grpSize ≤ s.blk.toNat) : encodeChars o s = .fault (.noSuchCell .grp s.blk.toNat) := by
  rw [encodeChars, readChars_eq_next.2 ⟨h, rfl⟩, thenDo_next, writeGrp_missing (by simpa using hb), thenDo_fault]

/-- What stops a character block whatever its offset word stops `ENC.CHC` and `ENC.CHD`. -/
theorem exec_chars_of_encodeChars_fault {f : Fault} (h : ∀ o, encodeChars o s = .fault f) :
    exec .encChc s = .fault f ∧ exec .encChd s = .fault f := by
  refine ⟨h .c, ?_⟩
  rw [exec, execEncChd, h .d, thenDo_fault]

end Encoder

/-! ### `PACK.BIT` -/

theorem packOne_missing_word {s : State} (h : s.cfg.grpSize ≤ s.widx.toNat) :
    packOne s = .fault (.noSuchCell .grp s.widx.toNat) := by
  rw [packOne, readGrp_missing h, thenDo_fault]

theorem packOne_missing_byte {s : State} (hw : s.widx.toNat < s.cfg.grpSize) (hn : s.nbits = 7#3)
    (ho : s.cfg.outSize ≤ s.optr.toNat) : packOne s = .fault (.noSuchCell .out s.optr.toNat) := by
  rw [packOne, readGrp_of_lt hw, thenDo_next, appendBit, if_pos (by simpa using hn),
    writeOut_missing (by simpa using ho), thenDo_fault, thenDo_fault, orDraw_optr]

/-! ### `PACK.WORD` -/

/-- Packing `m + n` bits is packing `m` and then `n`. -/
theorem packMany_add (m n : Nat) (s : State) : packMany (m + n) s = thenDo (packMany m s) (packMany n) := by
  induction m generalizing s with
  | zero => rw [Nat.zero_add, packMany, thenDo_next]
  | succ m ih =>
    rw [Nat.succ_add, packMany, packMany]
    cases packOne s with
    | next t => exact ih t
    | fault f => rfl
    | refused r => rfl

/-- `PACK.BIT` steps one after the other are `packMany`. -/
theorem repeat_packBit (lo : BitVec 2) (n : Nat) (s : State) :
    Nat.repeat (fun r => thenDo r (exec (.packBit lo))) n (.next s) = packMany n s := by
  induction n with
  | zero => rfl
  | succ n ih =>
    rw [Nat.repeat, ih, packMany_add]
    refine congrArg (thenDo (packMany n s)) (funext fun t => ?_)
    rw [packMany, exec, execPackBit]
    cases packOne t <;> rfl

/-- The first bit that stops stops the bits after it. -/
theorem packMany_of_fault {m n : Nat} {s u : State} {f : Fault} (hmn : m < n) (hm : packMany m s = .next u)
    (hu : packOne u = .fault f) : packMany n s = .fault f := by
  obtain ⟨k, rfl⟩ := Nat.exists_eq_add_of_lt hmn
  rw [Nat.add_assoc, packMany_add, hm, thenDo_next, packMany, hu, thenDo_fault]

section Byte

variable {s : State}

/-- `OPTR` after the step, where the byte it may complete lies in an `OUT` of at most 4095 cells. -/
theorem afterBit_optr_toNat (hsize : s.cfg.outSize < 4096) (ho : s.nbits = 7#3 → s.optr.toNat < s.cfg.outSize) :
    (afterBit s).optr.toNat = s.optr.toNat + if s.nbits = 7#3 then 1 else 0 := by
  rw [afterBit_optr]
  split
  · next h7 =>
    have := ho h7
    bv_omega
  · rfl

theorem afterBit_nbits_toNat : (afterBit s).nbits.toNat = if s.nbits = 7#3 then 0 else s.nbits.toNat + 1 := by
  rw [afterBit_nbits]
  split
  · next h7 => rw [h7]; rfl
  · bv_omega

/-- With `k` bits of the word left and more bytes to complete than `OUT` has cells for, packing them stops at the first
missing byte: `OPTR` itself, or the end of `OUT`, which `OPTR` reaches without wrapping. -/
theorem packMany_missing_byte {k : Nat} (hsize : s.cfg.outSize < 4096) (hpos : s.pos.toNat = k + 5)
    (hw : s.widx.toNat < s.cfg.grpSize) (hbyte : 8 ≤ s.nbits.toNat + k)
    (hout : s.cfg.outSize < s.optr.toNat + (s.nbits.toNat + k) / 8) :
    packMany k s = .fault (.noSuchCell .out (max s.optr.toNat s.cfg.outSize)) := by
  induction k generalizing s with
  | zero =>
    have := s.nbits.isLt
    omega
  | succ k ih =>
    have h7 : s.nbits = 7#3 ↔ s.nbits.toNat = 7 := BitVec.toNat_inj.symm
    rw [packMany]
    by_cases ho : s.nbits = 7#3 → s.optr.toNat < s.cfg.outSize
    · have hk : k ≠ 0 := by
        rintro rfl
        have := s.nbits.isLt
        have := ho (h7.2 (by omega))
        omega
      have h6 : s.pos ≠ 6#5 := by
        intro h6
        have : s.pos.toNat = 6 := by rw [h6]; rfl
        omega
      have pos : (afterBit s).pos.toNat = k + 5 := by
        rw [afterBit_pos, if_neg h6]
        bv_omega
      have widx : (afterBit s).widx = s.widx := if_neg h6
      have counts : 8 ≤ (afterBit s).nbits.toNat + k ∧
          s.cfg.outSize < (afterBit s).optr.toNat + ((afterBit s).nbits.toNat + k) / 8 ∧
          max (afterBit s).optr.toNat s.cfg.outSize = max s.optr.toNat s.cfg.outSize := by
        rw [afterBit_optr_toNat hsize ho, afterBit_nbits_toNat]
        by_cases hn : s.nbits = 7#3
        · have := ho hn
          have := h7.1 hn
          simp only [if_pos hn]
          omega
        · have := mt h7.2 hn
          simp only [if_neg hn]
          omega
      obtain ⟨hbyte', hout', same⟩ := counts
      rw [packOne_eq_next_afterBit.2 ⟨hw, ho, rfl⟩, thenDo_next, ← same]
      exact ih hsize pos (by rw [widx]; exact hw) hbyte' hout'
    · obtain ⟨hn, ho⟩ := Classical.not_imp.1 ho
      rw [packOne_missing_byte hw hn (Nat.not_lt.1 ho), thenDo_fault, Nat.max_eq_left (Nat.not_lt.1 ho)]

end Byte

theorem outSize_lt_of_wf {c : Config} (h : c.wf = true) : c.outSize < 4096 := by
  simp only [Config.wf, Bool.and_eq_true, decide_eq_true_eq] at h
  unfold Config.outSize
  omega

/-- Settles O45: each operation as its first access that stops; `PACK.WORD` by `packMany_of_fault` and, from the top of
a word, by `packMany_missing_byte`. -/
theorem operationsStopOnMissingCells : Obligations.OperationsStopOnMissingCells := by
  refine ⟨fun s hb => ?_, fun s hm => ?_, fun s hm hm' => ?_, fun s hm hb => ?_, fun lo s hw => ?_,
    fun lo s hw hn ho => packOne_missing_byte hw hn ho, fun n s u f hn hu hf => ?_, fun s hc hp hw ho => ?_⟩
  · exact ⟨store_advance_missing hb, store_advance_missing hb⟩
  · exact exec_chars_of_encodeChars_fault fun o => encodeChars_of_readChars_fault o (readChars_missing_first hm)
  · exact exec_chars_of_encodeChars_fault fun o => encodeChars_of_readChars_fault o (readChars_missing_second hm hm')
  · exact exec_chars_of_encodeChars_fault fun o => encodeChars_missing_word o hm hb
  · have stop := packOne_missing_word hw
    exact ⟨stop, packMany_of_fault (m := 0) (by decide) rfl stop⟩
  · rw [repeat_packBit] at hu
    exact packMany_of_fault hn hu hf
  · exact packMany_missing_byte (outSize_lt_of_wf hc) (by rw [hp]; rfl) hw (Nat.le_add_left_of_le (by decide)) ho

end Sys2Proof.Machine
end

section
/-! SUPPORT. The selectors and the block words (30_encoding.md): each selector decodes to its row and back, a block word
reads back its fields, and the core's turn performs what its selector decodes to. -/

namespace Sys2Proof

/-! ### Selectors (30_encoding.md R57, R58; 10_state.md R15) -/

theorem decodeSeq_idle (lo : BitVec 2) : decodeSeq (0b00#2 ++ lo) = .noStep lo := by
  revert lo; decide

theorem decodeSeq_pack (lo : BitVec 2) : decodeSeq (0b10#2 ++ lo) = .packBit lo := by
  revert lo; decide

theorem decodeSeq_reserved (lo : BitVec 2) : decodeSeq (0b11#2 ++ lo) = .reserved lo := by
  revert lo; decide

/-- Every value of `SEL` is an encoding of the row it selects: the table is complete (30_encoding.md R58). -/
theorem encode_decodeSeq (sel : BitVec 4) :
    encode (decodeSeq sel) = .seq sel ∧ (decodeSeq sel).hasOwnSelector = true := by
  revert sel; decide

/-- Exactly four offset selectors exist (30_encoding.md R59 (b)). -/
theorem exists_offset_code (sel : BitVec 2) : ∃ o : Offset, sel = o.code := by
  have codes : sel = 0b00#2 ∨ sel = 0b01#2 ∨ sel = 0b10#2 ∨ sel = 0b11#2 := by revert sel; decide
  rcases codes with h | h | h | h
  exacts [⟨.a, h⟩, ⟨.b, h⟩, ⟨.c, h⟩, ⟨.d, h⟩]

theorem encode_decodeCrc (sel : BitVec 2) (m : Info) :
    encode (decodeCrc sel m) = .crc sel m ∧ (decodeCrc sel m).hasOwnSelector = true := by
  obtain ⟨o, rfl⟩ := exists_offset_code sel
  cases o <;> exact ⟨rfl, rfl⟩

theorem decodeCtrl_eq_ok {v : BitVec 16} {i : Instr} :
    decodeCtrl v = .ok i ↔ v.getLsbD 0 = true ∧ .start (v.extractLsb' 1 15) = i := by
  unfold decodeCtrl
  split
  · next h => exact ⟨fun e => ⟨h, Except.ok.inj e⟩, fun e => congrArg _ e.2⟩
  · next h => exact ⟨nofun, fun e => absurd e.1 h⟩

theorem decodeCtrl_eq_error {v : BitVec 16} {r : Reject} :
    decodeCtrl v = .error r ↔ v.getLsbD 0 = false ∧ .startBitClear = r := by
  unfold decodeCtrl
  split
  · next h => exact ⟨nofun, fun e => absurd (h.symm.trans e.1) (by decide)⟩
  · next h => exact ⟨fun e => ⟨Bool.eq_false_of_not_eq_true h, Except.error.inj e⟩, fun e => congrArg _ e.2⟩

theorem decodeCtrl_append_one (rsv : BitVec 15) : decodeCtrl (rsv ++ 1#1) = .ok (.start rsv) :=
  decodeCtrl_eq_ok.2 ⟨by rw [BitVec.getLsbD_append]; rfl, congrArg _ BitVec.extractLsb'_append_eq_left⟩

/-- A value with bit 0 set is its bits 15:1 and that bit (10_state.md R15). -/
theorem append_one_of_bit_zero {v : BitVec 16} (h : v.getLsbD 0 = true) : v.extractLsb' 1 15 ++ 1#1 = v := by
  have low : v.extractLsb' 0 1 = 1#1 := by
    ext i hi
    obtain rfl : i = 0 := by omega
    simpa using h
  rw [← low]
  exact BitVec.extractLsb'_append_extractLsb'

/-- Settles O2: row by row; the open bits of a row come back because the fixed bits stand apart from them. -/
theorem decodeOfEncodeGivesOperationBack : Obligations.DecodeOfEncodeGivesOperationBack := by
  intro i hi
  cases i with
  | encPi | encCtrl | encChc | encChd | crcA | crcB | crcC | crcD => rfl
  | packBit lo => exact congrArg _ (decodeSeq_pack lo)
  | noStep lo => exact congrArg _ (decodeSeq_idle lo)
  | reserved lo => exact congrArg _ (decodeSeq_reserved lo)
  | start rsv => exact decodeCtrl_append_one rsv
  | packWord | finish => cases hi

/-- Settles O3: port by port; only `CTRL` can reject. -/
theorem encodeOfDecodeGivesSelectorBack : Obligations.EncodeOfDecodeGivesSelectorBack := by
  constructor
  · intro sel i h
    cases sel with
    | seq x => cases h; exact encode_decodeSeq x
    | crc x m => cases h; exact encode_decodeCrc x m
    | ctrl v =>
      obtain ⟨hv, rfl⟩ := decodeCtrl_eq_ok.1 h
      exact ⟨congrArg Selector.ctrl (append_one_of_bit_zero hv), rfl⟩
  · intro sel r h
    cases sel with
    | seq x => cases h
    | crc x m => cases h
    | ctrl v => exact ⟨v, rfl, (decodeCtrl_eq_error.1 h).1⟩

/-- Settles O1: the rows with open bits by their lemmas, the fixed words by evaluation. -/
theorem selectorWordsDecodeAsTabled : Obligations.SelectorWordsDecodeAsTabled :=
  ⟨rfl, rfl, rfl, rfl,
    fun lo => ⟨congrArg _ (decodeSeq_idle lo), congrArg _ (decodeSeq_pack lo), congrArg _ (decodeSeq_reserved lo)⟩,
    rfl, rfl, rfl, rfl, rfl, rfl, rfl⟩

/-- Settles O4: both composite rows encode as `PACK.BIT` with the low bits 0. -/
theorem compositeRowsHaveTheSelectorOfPackBit : Obligations.CompositeRowsHaveTheSelectorOfPackBit := ⟨rfl, rfl⟩

/-! ### Block words (30_encoding.md R50 to R55, R61) -/

@[simp] theorem wordInfo_encodeBlock (b : Block) : wordInfo (encodeBlock b) = b.info := by
  rw [wordInfo, encodeBlock, BitVec.extractLsb'_append_eq_of_le (by decide), BitVec.extractLsb'_append_eq_left]

@[simp] theorem wordCw_encodeBlock (b : Block) : wordCw (encodeBlock b) = b.cw := by
  rw [wordCw, encodeBlock, BitVec.extractLsb'_append_eq_of_le (by decide), BitVec.extractLsb'_append_eq_right]

@[simp] theorem wordRsv_encodeBlock (b : Block) : wordRsv (encodeBlock b) = rsvVal := by
  rw [wordRsv, encodeBlock, BitVec.extractLsb'_append_eq_right]

/-- A field of a block word above bit 16 is a field of its information word. -/
theorem encodeBlock_extract (b : Block) {start len : Nat} (h : 16 ≤ start) :
    (encodeBlock b).extractLsb' start len = b.info.extractLsb' (start - 16) len := by
  rw [encodeBlock, BitVec.extractLsb'_append_eq_of_le (by omega), BitVec.extractLsb'_append_eq_of_le (by omega),
    Nat.sub_sub]

theorem encodeBlock_eq_shiftLeft_or (b : Block) :
    encodeBlock b = ((b.info.setWidth 32) <<< 16 ||| (b.cw.setWidth 32) <<< 6) := by
  have fields := BitVec.setWidth_append_append_eq_shiftLeft_setWidth_or (b := b.info) (b' := b.cw) (b'' := rsvVal)
    (w''' := 32)
  have reserved : rsvVal.setWidth 32 = 0#32 := rfl
  rwa [BitVec.setWidth_eq, reserved, BitVec.or_zero] at fields

/-- The fields of a control block's information word, from the top (30_encoding.md R52). -/
theorem extract_control_fields (gt : BitVec 5) (tp : BitVec 1) (pty : BitVec 5) (ab : BitVec 1) (sega : BitVec 4) :
    (gt ++ tp ++ pty ++ ab ++ sega).extractLsb' 11 5 = gt ∧ (gt ++ tp ++ pty ++ ab ++ sega).extractLsb' 10 1 = tp ∧
      (gt ++ tp ++ pty ++ ab ++ sega).extractLsb' 5 5 = pty ∧ (gt ++ tp ++ pty ++ ab ++ sega).extractLsb' 4 1 = ab ∧
      (gt ++ tp ++ pty ++ ab ++ sega).extractLsb' 0 4 = sega := by
  refine ⟨?_, ?_, ?_, ?_, BitVec.extractLsb'_append_eq_right⟩
  all_goals rw [BitVec.extractLsb'_append_eq_of_le (by decide)]
  · rw [BitVec.extractLsb'_append_eq_of_le (by decide), BitVec.extractLsb'_append_eq_of_le (by decide)]
    exact BitVec.extractLsb'_append_eq_left
  · rw [BitVec.extractLsb'_append_eq_of_le (by decide), BitVec.extractLsb'_append_eq_of_le (by decide)]
    exact BitVec.extractLsb'_append_eq_right
  · rw [BitVec.extractLsb'_append_eq_of_le (by decide)]
    exact BitVec.extractLsb'_append_eq_right
  · exact BitVec.extractLsb'_append_eq_right

/-- Each format's fields lie where reading the word back looks for them. -/
theorem decodeBlock_encodeBlock {b : Block} {k : BlockKind} (h : b.hasKind k = true) :
    decodeBlock k (encodeBlock b) = b := by
  match b, k, h with
  | .pi code cw, .pi, _ => simp [decodeBlock, Block.info, Block.cw]
  | .control gt tp pty ab sega cw, .control, _ =>
    obtain ⟨gtField, tpField, ptyField, abField, segaField⟩ := extract_control_fields gt tp pty ab sega
    simp [decodeBlock, encodeBlock_extract, Block.info, Block.cw, gtField, tpField, ptyField, abField, segaField]
  | .char hi lo cw, .charC, _ | .char hi lo cw, .charD, _ =>
    have hiField : (hi ++ lo).extractLsb' 8 8 = hi := BitVec.extractLsb'_append_eq_left
    have loField : (hi ++ lo).extractLsb' 0 8 = lo := BitVec.extractLsb'_append_eq_right
    simp [decodeBlock, encodeBlock_extract, Block.info, Block.cw, hiField, loField]

/-- Settles O5: the fields by `decodeBlock_encodeBlock` and the three parts of the word, the shifts by the append. -/
theorem blockWordReadsBackItsFields : Obligations.BlockWordReadsBackItsFields := fun b _ h =>
  ⟨decodeBlock_encodeBlock h, wordInfo_encodeBlock b, wordCw_encodeBlock b, wordRsv_encodeBlock b,
    encodeBlock_eq_shiftLeft_or b⟩

end Sys2Proof

namespace Sys2Proof.Machine

/-- Settles O6: the mask keeps the information word's constants, none of the checkword, and the reserved bits. -/
theorem controlWordsMatchTheirPattern : Obligations.ControlWordsMatchTheirPattern := by
  intro c seg gt pty ab
  have info : controlInfo c seg = 0x200#12 ++ seg := by
    rw [controlInfo, gt, pty, ab]; rfl
  have word : controlWord c seg = controlInfo c seg ++ crc c (controlInfo c seg) .b ++ rsvVal := rfl
  have mask : 0xFFF0003F#32 = 0xFFF#12 ++ 0x0#4 ++ 0x000#10 ++ 0x3F#6 := rfl
  refine ⟨?_, ?_, ?_⟩
  · rw [word, info, mask]
    rw [BitVec.and_append, BitVec.and_append, BitVec.and_append, BitVec.and_zero, BitVec.and_zero]
    rfl
  · rw [controlWord, encodeBlock_extract _ (by decide)]
    exact BitVec.extractLsb'_append_eq_right
  · rw [info]
    clear info word
    revert seg; decide

/-! ### Output bits (30_encoding.md R54) -/

/-- The bit the driver reads is the closed form's output bit, where `OUT` holds the closed form's byte. -/
theorem outBitAt_of_outByte {s : State} {g : Nat → Word} {b : Nat}
    (h : s.out.read (b / 8) = some (outByte g (b / 8))) : outBitAt s b = some (outBit g b) := by
  rw [outBitAt, h, Option.map_some, outByte, byteOf_bit _ (Nat.mod_lt b (by decide)), Nat.div_add_mod]

/-- Settles O28: `outBitAt_of_outByte`, with the protocol bit before the first taken as 0. -/
theorem outputBitsLieMostSignificantFirst : Obligations.OutputBitsLieMostSignificantFirst := by
  intro s g n h b hb
  rw [outBitAt_of_outByte (h _ (by omega))]
  cases b <;> rfl

/-! ### The core's turn (30_encoding.md R58, 43_sequencer_host.md R113) -/

theorem step_of_nil {s : State} (h : s.turns = []) : step s = coreTurn s := by
  simp only [step, takeTurn, h]

theorem step_of_core {s : State} {ts : List Turn} (h : s.turns = .core :: ts) :
    step s = coreTurn { s with turns := ts } := by
  simp only [step, takeTurn, h]

theorem step_of_named {s : State} {i : Instr} {ts : List Turn} (h : s.turns = .named i :: ts) :
    step s = exec i { s with turns := ts } := by
  simp only [step, takeTurn, h]

theorem coreTurn_of_decode {s : State} {i : Instr} (h : decode (.seq s.sel) = .ok i) : coreTurn s = exec i s := by
  cases h; rfl

/-- A write to `CTRL` performs the command its value decodes to (10_state.md R15). -/
theorem hostWriteCtrl_of_ok {v : BitVec 16} {i : Instr} {s : State} (h : decode (.ctrl v) = .ok i) :
    hostWriteCtrl v s = exec i s := by
  obtain ⟨_, rfl⟩ := decodeCtrl_eq_ok.1 h
  rw [hostWriteCtrl, h]
  rfl

theorem hostWriteCtrl_of_error {v : BitVec 16} {r : Reject} {s : State} (h : decode (.ctrl v) = .error r) :
    hostWriteCtrl v s = .next s := by
  rw [hostWriteCtrl, h]

/-- Settles O31: with no turn waiting the step is the core's, `coreTurn_idle`. -/
theorem idleCoreChangesNothing : Obligations.IdleCoreChangesNothing :=
  ⟨fun _ _ => rfl, fun _ hp ht => (step_of_nil ht).trans (coreTurn_idle hp)⟩

/-- Settles O32: with no turn waiting the step is the core's, `coreTurn_reserved`. -/
theorem reservedPhaseIsRefused : Obligations.ReservedPhaseIsRefused :=
  ⟨fun _ _ => rfl, fun _ hp ht => (step_of_nil ht).trans (coreTurn_reserved hp)⟩

/-- Settles O33: turn by turn; `SEL` does not read the turns, so taking one off leaves the core's operation. -/
theorem stepRunsTheDecodedOperation : Obligations.StepRunsTheDecodedOperation := by
  refine ⟨fun s i ht hd => ?_, fun s ts i ht hd => ?_, fun s ts v i ht hd => ?_, fun s ts v r ht hd => ?_,
    fun s ts i ht => step_of_named ht⟩
  · exact (step_of_nil ht).trans (coreTurn_of_decode hd)
  · exact (step_of_core ht).trans (coreTurn_of_decode hd)
  · exact (step_of_host ht).trans (hostWriteCtrl_of_ok hd)
  · exact (step_of_host ht).trans (hostWriteCtrl_of_error hd)

/-- The block kind is the low two bits of `BLK` (30_encoding.md R57). -/
theorem kindOf_blk (blk : BitVec 10) : kindOf blk.toNat = kindOf (blk.extractLsb' 0 2).toNat := by
  simp only [kindOf, blk_low_toNat, Nat.mod_mod]

/-- Settles O34: `decodeSeq_sel` by phase; in `ENCODE` the four values of `BLK mod 4`. -/
theorem selectorNamesTheBlockKindsOperation : Obligations.SelectorNamesTheBlockKindsOperation := by
  intro s
  simp only [decode, decodeSeq_sel]
  refine ⟨fun hp => ⟨_, by rw [hp]⟩, fun hp => ?_, fun hp => ⟨_, by rw [hp]⟩, fun hp => ⟨_, by rw [hp]⟩⟩
  rw [kindOf_blk, hp]
  generalize s.blk.extractLsb' 0 2 = low
  congr 1
  revert low; decide

end Sys2Proof.Machine
end

section
/-! SUPPORT. The CRC Generator (40_crc.md). The remainder is linear over GF(2) (R75 (c)), a linear function is known by
its values on the single bits (R75 (f)), and there every form of the remainder is a power of `x` modulo `g(x)` (R71). -/

namespace Sys2Proof.Machine

/-! ### Linear functions of words (40_crc.md R76: addition is `^^^`) -/

/-- A function of words that commutes with addition over GF(2). -/
def XorLinear {w v : Nat} (f : BitVec w → BitVec v) : Prop := ∀ a b, f (a ^^^ b) = f a ^^^ f b

/-- The low `n + 1` bits are the low `n` bits with a single bit added. -/
theorem setWidth_succ_of_bit {w n : Nat} {m : BitVec w} (h : m.getLsbD n = true) :
    (m.setWidth (n + 1)).setWidth w = (m.setWidth n).setWidth w ^^^ 1#w <<< n := by
  rw [BitVec.setWidth_setWidth_succ_eq_setWidth_setWidth_or_twoPow_of_getLsbD_true h, ← BitVec.twoPow_eq]
  ext i hi
  by_cases hn : i = n <;> simp [hn]

namespace XorLinear

variable {w v u : Nat} {f g : BitVec w → BitVec v}

theorem map_zero (hf : XorLinear f) : f 0#w = 0#v := by
  have double := hf 0#w 0#w
  rwa [BitVec.xor_self, BitVec.xor_self] at double

theorem comp {h : BitVec v → BitVec u} (hh : XorLinear h) (hf : XorLinear f) : XorLinear (h ∘ f) := fun a b => by
  rw [Function.comp_apply, hf a b, hh]; rfl

theorem iterate {h : BitVec v → BitVec v} (hh : XorLinear h) : ∀ n, XorLinear h^[n]
  | 0 => fun _ _ => rfl
  | n + 1 => (hh.iterate n).comp hh

/-- Equal on the single bits, equal everywhere: by the number of low bits of the argument that are kept. -/
theorem ext (hf : XorLinear f) (hg : XorLinear g) (h : ∀ i : Fin w, f (1#w <<< i.val) = g (1#w <<< i.val)) :
    f = g := by
  have low (m : BitVec w) (n : Nat) (hn : n ≤ w) :
      f ((m.setWidth n).setWidth w) = g ((m.setWidth n).setWidth w) := by
    induction n with
    | zero => rw [BitVec.of_length_zero (x := m.setWidth 0), BitVec.setWidth_zero, hf.map_zero, hg.map_zero]
    | succ n ih =>
      cases hm : m.getLsbD n with
      | true => rw [setWidth_succ_of_bit hm, hf, hg, ih (by omega), h ⟨n, hn⟩]
      | false => rw [BitVec.setWidth_setWidth_succ_eq_setWidth_setWidth_of_getLsbD_false hm, ih (by omega)]
  funext m
  have all := low m w le_rfl
  rwa [BitVec.setWidth_eq, BitVec.setWidth_eq] at all

end XorLinear

/-- Adding a constant under a condition is linear in the condition and the word together. -/
theorem ite_xor_xor {w : Nat} (p q : Bool) (a b k : BitVec w) :
    (if p ^^ q then a ^^^ b ^^^ k else a ^^^ b) = (if p then a ^^^ k else a) ^^^ (if q then b ^^^ k else b) := by
  cases p <;> cases q
  · rfl
  · exact BitVec.xor_assoc a b k
  · have comm : a ^^^ b ^^^ k = a ^^^ k ^^^ b := by ac_rfl
    exact comm
  · have twice : a ^^^ k ^^^ (b ^^^ k) = a ^^^ b ^^^ (k ^^^ k) := by ac_rfl
    rw [BitVec.xor_self, BitVec.xor_zero] at twice
    exact twice.symm

/-! ### The table form (40_crc.md R70) -/

theorem crcEntry_of_fin (table : Vector Checkword 16) (i : Fin 16) : crcEntry table i.val = table[i] := by
  simp [crcEntry]

/-- `r(n)` as the loop of R70 over the bits below `n`. -/
theorem crcPartial_eq_foldl (table : Vector Checkword 16) (m : Info) (n : Nat) :
    crcPartial table m n =
      (List.range n).foldl (fun r i => if m.getLsbD i then r ^^^ crcEntry table i else r) 0 := by
  induction n with
  | zero => rfl
  | succ n ih => rw [List.range_succ, List.foldl_append, ← ih]; rfl

/-- The remainder is the sum of the table entries at the set bits. -/
theorem crcRem_eq_foldl_filter (table : Vector Checkword 16) (m : Info) :
    crcRem table m =
      ((List.finRange 16).filter fun i => m.getLsbD i.val).foldl (fun r i => r ^^^ table[i]) 0 := by
  rw [crcRem, crcPartial_eq_foldl, ← List.map_coe_finRange_eq_range, List.foldl_map, List.foldl_filter]
  simp only [crcEntry_of_fin]

theorem crcPartial_xor (table : Vector Checkword 16) (m₁ m₂ : Info) (n : Nat) :
    crcPartial table (m₁ ^^^ m₂) n = crcPartial table m₁ n ^^^ crcPartial table m₂ n := by
  induction n with
  | zero => exact BitVec.xor_self.symm
  | succ n ih => simp only [crcPartial, ih, BitVec.getLsbD_xor, ite_xor_xor]

theorem crcRem_xorLinear (table : Vector Checkword 16) : XorLinear (crcRem table) := fun m₁ m₂ =>
  crcPartial_xor table m₁ m₂ 16

theorem crcPartial_single_bit (table : Vector Checkword 16) (i : Fin 16) {n : Nat} (hn : n ≤ 16) :
    crcPartial table (1#16 <<< i.val) n = if i.val < n then crcEntry table i.val else 0 := by
  induction n with
  | zero => rfl
  | succ n ih =>
    rw [crcPartial, ih (by omega), ← BitVec.twoPow_eq, BitVec.getLsbD_twoPow]
    obtain below | rfl | above := Nat.lt_trichotomy i.val n
    · simp [below, below.ne, Nat.lt_succ_of_lt below]
    · simp
    · simp [above.ne', above.not_gt, show ¬ i.val < n + 1 by omega]

theorem crcRem_single_bit (table : Vector Checkword 16) (i : Fin 16) : crcRem table (1#16 <<< i.val) = table[i] := by
  rw [crcRem, crcPartial_single_bit table i le_rfl, if_pos i.isLt, crcEntry_of_fin]

/-- Settles O7: each row answers `crc`, whose remainder part is the sum over the set bits. -/
theorem crcRowsAnswerTheChecksum : Obligations.CrcRowsAnswerTheChecksum := by
  intro m s
  simp only [← crcRem_eq_foldl_filter]
  exact ⟨rfl, rfl, rfl, rfl⟩

/-- Settles O8: linearity and the single bits are the remainder's; in the other laws the remainders cancel. -/
theorem crcLawsHoldForAnyTable : Obligations.CrcLawsHoldForAnyTable := by
  intro c m₁ m₂ o p
  refine ⟨crcRem_xorLinear c.crcTable m₁ m₂, ?_, ?_, fun i => ?_, Nat.le_of_lt_succ (crc c m₁ o).isLt⟩
  · have regroup : crc c m₁ o ^^^ crc c m₁ p =
        crcRem c.crcTable m₁ ^^^ crcRem c.crcTable m₁ ^^^ (offsetWord c o ^^^ offsetWord c p) := by
      unfold crc; ac_rfl
    rw [regroup, BitVec.xor_self, BitVec.zero_xor]
  · rw [crc, (crcRem_xorLinear c.crcTable).map_zero, BitVec.zero_xor]
  · rw [crc, crcRem_single_bit]

/-! ### Multiplication by `x` (40_crc.md R72, R76) -/

theorem crcTableNext_xorLinear : XorLinear crcTableNext := fun a b => by
  simp only [crcTableNext, BitVec.getLsbD_xor, BitVec.shiftLeft_xor_distrib, ite_xor_xor]

/-- `CRC_TABLE[i]` is `x^(i+10)`, by multiplying 1 by `x` as often. -/
theorem defaultCrcTable_eq_iterate (i : Fin 16) : defaultCrcTable[i] = crcTableNext^[i.val + 10] 1#10 := by
  revert i; decide

/-- A turn of the serial loop multiplies by `x` and adds the bit's `x^10`. -/
theorem crcSerialStep_eq_crcTableNext_xor (r : Checkword) (b : Bool) :
    crcSerialStep r b = crcTableNext r ^^^ if b then crcTableNext^[10] 1#10 else 0#10 := by
  have turn := ite_xor_xor (r.getLsbD 9) b (r <<< 1) 0#10 0x1B9#10
  rwa [BitVec.xor_zero, BitVec.zero_xor] at turn

/-- What the serial loop starts from is multiplied by `x` once for each bit; the bits below `n` add their entries. -/
theorem crcSerialFrom_eq_iterate_xor (m : Info) {n : Nat} (hn : n ≤ 16) (r : Checkword) :
    crcSerialFrom m n r = crcTableNext^[n] r ^^^ crcPartial defaultCrcTable m n := by
  induction n generalizing r with
  | zero => exact BitVec.xor_zero.symm
  | succ n ih =>
    have linear := crcTableNext_xorLinear.iterate n
    have entry : crcTableNext^[n] (crcTableNext^[10] 1#10) = crcEntry defaultCrcTable n := by
      rw [← Function.iterate_add_apply, crcEntry_of_fin defaultCrcTable ⟨n, hn⟩, defaultCrcTable_eq_iterate]
    rw [crcSerialFrom, crcSerialStep_eq_crcTableNext_xor, ih (by omega), linear, crcPartial,
      Function.iterate_succ_apply _ n r]
    cases m.getLsbD n with
    | false => simp [linear.map_zero]
    | true => rw [if_pos rfl, if_pos rfl, entry]; ac_rfl

theorem crcSerial_eq_crcRem (m : Info) : crcSerial m = crcRem defaultCrcTable m := by
  refine (crcSerialFrom_eq_iterate_xor m le_rfl 0#10).trans ?_
  rw [(crcTableNext_xorLinear.iterate 16).map_zero, BitVec.zero_xor, crcRem]

/-! ### Long division (40_crc.md R71, R74) -/

theorem longDivFrom_succ (n : Nat) (v : BitVec 26) :
    longDivFrom (n + 1) v =
      longDivFrom n (if v.getLsbD (n + 10) then v ^^^ (gPoly.setWidth 26 <<< n) else v) := rfl

theorem longDivFrom_xor (n : Nat) (v₁ v₂ : BitVec 26) :
    longDivFrom n (v₁ ^^^ v₂) = longDivFrom n v₁ ^^^ longDivFrom n v₂ := by
  induction n generalizing v₁ v₂ with
  | zero => rfl
  | succ n ih => rw [longDivFrom_succ, BitVec.getLsbD_xor, ite_xor_xor, ih]; rfl

theorem longDiv_xorLinear : XorLinear longDiv := fun v₁ v₂ => by
  rw [longDiv, longDivFrom_xor, BitVec.setWidth_xor]; rfl

theorem shiftedInfo_xorLinear : XorLinear shiftedInfo := fun m₁ m₂ => by
  rw [shiftedInfo, shiftedInfo, shiftedInfo, BitVec.xor_append, BitVec.xor_zero]

/-- A polynomial of degree below 10 is its own remainder. -/
theorem longDivFrom_of_low {v : BitVec 26} (h : ∀ i, v.getLsbD (i + 10) = false) (n : Nat) : longDivFrom n v = v := by
  induction n with
  | zero => rfl
  | succ n ih => rw [longDivFrom_succ, h n, if_neg Bool.false_ne_true, ih]

theorem longDiv_zero_append (r : Checkword) : longDiv (0#16 ++ r) = r := by
  have low (i : Nat) : (0#16 ++ r).getLsbD (i + 10) = false := by
    rw [BitVec.getLsbD_append, if_neg (by omega), BitVec.getLsbD_zero]
  rw [longDiv, longDivFrom_of_low low, BitVec.setWidth_append_eq_right]

/-- Dividing a product by `x` makes the same subtractions one place higher, and one more for the bit shifted out. -/
theorem longDivFrom_shiftLeft_one {n : Nat} (hn : n < 16) (v : BitVec 26) :
    longDivFrom (n + 1) (v <<< 1) = longDivFrom 1 (longDivFrom n v <<< 1) := by
  induction n generalizing v with
  | zero => rfl
  | succ n ih =>
    have bit : (v <<< 1).getLsbD (n + 1 + 10) = v.getLsbD (n + 10) := by
      rw [BitVec.getLsbD_shiftLeft, decide_eq_true (by omega), decide_eq_false (by omega)]; rfl
    rw [longDivFrom_succ (n + 1), longDivFrom_succ n v, ← ih (by omega), bit]
    congr 1
    split
    · rw [BitVec.shiftLeft_xor_distrib, BitVec.shiftLeft_add]
    · rfl

/-- The last subtraction is that of the step from one table entry to the next. -/
theorem longDivFrom_one_shiftLeft_one (v : BitVec 26) :
    (longDivFrom 1 (v <<< 1)).setWidth 10 = crcTableNext (v.setWidth 10) := by
  have shift : (v <<< 1).setWidth 10 = v.setWidth 10 <<< 1 := by
    ext i hi
    simp
  have low : (gPoly.setWidth 26 <<< 0).setWidth 10 = 0x1B9#10 := rfl
  have bit : (v <<< 1).getLsbD (0 + 10) = (v.setWidth 10).getLsbD 9 := by simp
  rw [longDivFrom_succ, bit, longDivFrom, crcTableNext]
  split
  · rw [BitVec.setWidth_xor, shift, low]
  · exact shift

theorem longDiv_shiftLeft_one {v : BitVec 26} (h : v.getLsbD 25 = false) :
    longDiv (v <<< 1) = crcTableNext (longDiv v) := by
  have first : longDivFrom 16 v = longDivFrom 15 v := by rw [longDivFrom_succ, h, if_neg Bool.false_ne_true]
  rw [longDiv, longDivFrom_shiftLeft_one (by decide), longDivFrom_one_shiftLeft_one, ← first, longDiv]

theorem longDiv_single_bit {i : Nat} (hi : i < 26) : longDiv (1#26 <<< i) = crcTableNext^[i] 1#10 := by
  induction i with
  | zero => exact longDiv_zero_append 1#10
  | succ i ih =>
    have top : (1#26 <<< i).getLsbD 25 = false := by
      rw [← BitVec.twoPow_eq, BitVec.getLsbD_twoPow]
      simp [show i ≠ 25 by omega]
    rw [BitVec.shiftLeft_add, longDiv_shiftLeft_one top, ih (by omega), Function.iterate_succ_apply']

/-- Settles O9: the numbers are evaluated; both they and the remainders are the powers of `x`. -/
theorem crcTableFollowsFromThePolynomial : Obligations.CrcTableFollowsFromThePolynomial := by
  refine ⟨rfl, by decide, fun i => ?_⟩
  rw [longDiv_single_bit (by omega), defaultCrcTable_eq_iterate]

theorem shiftedInfo_single_bit (i : Fin 16) : shiftedInfo (1#16 <<< i.val) = 1#26 <<< (i.val + 10) := by
  revert i; decide

theorem longDiv_shiftedInfo (m : Info) : longDiv (shiftedInfo m) = crcRem defaultCrcTable m := by
  have same : longDiv ∘ shiftedInfo = crcRem defaultCrcTable :=
    (longDiv_xorLinear.comp shiftedInfo_xorLinear).ext (crcRem_xorLinear _) fun i => by
      rw [Function.comp_apply, shiftedInfo_single_bit, crcRem_single_bit, longDiv_single_bit (by omega),
        defaultCrcTable_eq_iterate]
  exact congrFun same m

/-- Settles O10: both other forms are the remainder part. -/
theorem crcTableFormEqualsSerialAndLongDivision : Obligations.CrcTableFormEqualsSerialAndLongDivision := by
  intro c m o table
  rw [crc, table]
  exact ⟨by rw [crcSerial_eq_crcRem], by rw [longDiv_shiftedInfo]⟩

/-- Settles O11: `rem(INFO)` is added to a polynomial whose remainder it is. -/
theorem infoWithRemainderIsDivisible : Obligations.InfoWithRemainderIsDivisible := by
  intro m
  have word : m ++ crcRem defaultCrcTable m = shiftedInfo m ^^^ (0#16 ++ crcRem defaultCrcTable m) := by
    rw [shiftedInfo, BitVec.xor_append, BitVec.xor_zero, BitVec.zero_xor]
  rw [word, longDiv_xorLinear, longDiv_zero_append, longDiv_shiftedInfo]
  exact BitVec.xor_self

/-! ### Words with the same remainder (40_crc.md R75 (h)) -/

/-- `g(x)` has the constant term 1, so bit 0 of the product is the bit shifted out. -/
theorem crcTableNext_bit_zero (e : Checkword) : (crcTableNext e).getLsbD 0 = e.getLsbD 9 := by
  unfold crcTableNext
  split <;> simp_all

/-- Multiplication by `x` can be undone modulo `g(x)`. -/
theorem crcTableNext_injective : Function.Injective crcTableNext := by
  intro a b h
  have top : a.getLsbD 9 = b.getLsbD 9 := by
    rw [← crcTableNext_bit_zero, h, crcTableNext_bit_zero]
  have shifted : a <<< 1 = b <<< 1 := by
    unfold crcTableNext at h
    rw [top] at h
    split at h
    · exact (BitVec.xor_left_inj _).1 h
    · exact h
  ext i hi
  obtain rfl | hi9 := eq_or_ne i 9
  · exact top
  · have bit := congrArg (·.getLsbD (i + 1)) shifted
    simpa [show i + 1 < 10 by omega] using bit

theorem zero_append_xorLinear {w v : Nat} : XorLinear fun lo : BitVec v => 0#w ++ lo := fun a b => by
  rw [BitVec.xor_append, BitVec.xor_zero]

/-- On the ten low bits the remainder is multiplication by `x^10` modulo `g(x)`. -/
theorem crcRem_zero_append : (crcRem defaultCrcTable ∘ fun lo : BitVec 10 => 0#6 ++ lo) = crcTableNext^[10] :=
  ((crcRem_xorLinear _).comp zero_append_xorLinear).ext (crcTableNext_xorLinear.iterate 10) (by decide)

theorem crcRem_append (table : Vector Checkword 16) (hi : BitVec 6) (lo : BitVec 10) :
    crcRem table (hi ++ lo) = crcRem table (hi ++ 0#10) ^^^ crcRem table (0#6 ++ lo) := by
  rw [← crcRem_xorLinear, BitVec.xor_append, BitVec.xor_zero, BitVec.zero_xor]

/-- Settles O12: the high bits add a constant, and multiplication by `x^10` is a bijection of the remainders. -/
theorem sixtyFourWordsShareEachRemainder : Obligations.SixtyFourWordsShareEachRemainder := by
  intro hi r
  have bijective : Function.Bijective crcTableNext^[10] :=
    Finite.injective_iff_bijective.1 (crcTableNext_injective.iterate 10)
  have solve (lo : BitVec 10) :
      crcRem defaultCrcTable (hi ++ lo) = r ↔ crcTableNext^[10] lo = crcRem defaultCrcTable (hi ++ 0#10) ^^^ r := by
    rw [crcRem_append, ← crcRem_zero_append, Function.comp_apply,
      ← BitVec.xor_right_inj (crcRem defaultCrcTable (hi ++ 0#10)), ← BitVec.xor_assoc, BitVec.xor_self,
      BitVec.zero_xor]
  simp only [solve]
  exact bijective.existsUnique _

end Sys2Proof.Machine
end

section
/-! SUPPORT. The Group Encoder (41_group_encoder.md): what each `ENC.*` operation stores, the validity of the words
(R88), and the closed form's packets (R86, R87, R89). -/

namespace Sys2Proof.Machine

/-! ### The closed form (41_group_encoder.md R86) -/

/-- `SEGA` lies in the low four bits of the control block's information word (30_encoding.md R52). -/
theorem controlWord_segment (c : Config) (seg : BitVec 4) : (controlWord c seg).extractLsb' 16 4 = seg := by
  rw [controlWord, encodeBlock_extract _ (by decide)]
  exact BitVec.extractLsb'_append_eq_right

theorem kindOf_four_mul_add_one (k : Nat) : kindOf (4 * k + 1) = .control := by
  rw [kindOf, Nat.mul_add_mod]
  rfl

/-- The control block of packet `k` carries the segment `k` modulo 16 (41_group_encoder.md R87). -/
theorem blockAt_control (c : Config) (piCode : BitVec 16) (piCheck : BitVec 10) (msg : Nat → Byte) (k : Nat) :
    blockAt c piCode piCheck msg (4 * k + 1) = controlWord c (BitVec.ofNat 4 k) := by
  have packet : (4 * k + 1) / 4 = k := by omega
  simp only [blockAt, kindOf_four_mul_add_one, packet]

/-- A block depends on no message byte but its own packet's four (41_group_encoder.md R89). -/
theorem blockAt_congr (c : Config) (piCode : BitVec 16) (piCheck : BitVec 10) {m₁ m₂ : Nat → Byte} {i : Nat}
    (h : ∀ a, a / 4 = i / 4 → m₁ a = m₂ a) : blockAt c piCode piCheck m₁ i = blockAt c piCode piCheck m₂ i := by
  unfold blockAt
  cases kindOf i with
  | pi | control => rfl
  | charC | charD => simp only; rw [h _ (by omega), h _ (by omega)]

/-- Settles O18: the segment by `blockAt_control`; a pass is its blocks in order, and each block of the first `n₁`
packets reads only the common part of the messages. -/
theorem segmentsCountPacketsAndPassesExtend : Obligations.SegmentsCountPacketsAndPassesExtend := by
  refine ⟨fun c piCode piCheck msg k => ?_, fun c piCode piCheck m₁ m₂ n₁ n₂ hn hm => ?_⟩
  · rw [blockAt_control, controlWord_segment, BitVec.toNat_ofNat]
  · rw [encodeGroups, encodeGroups, ← List.map_take, List.take_range, Nat.min_eq_left (by omega)]
    refine List.map_congr_left fun i hi => (blockAt_congr c piCode piCheck fun a ha => hm a ?_).symm
    have := List.mem_range.1 hi
    omega

/-! ### What the operations store (41_group_encoder.md R82 to R85) -/

section Operations

variable {s t : State}

/-- In `ENCODE` the low bits of `BLK` alone select the operation (30_encoding.md R58). -/
theorem decode_sel_of_encode {low : BitVec 2} (hp : s.phase = .encode) (hl : s.blk.extractLsb' 0 2 = low) :
    decode (.seq s.sel) = .ok (decodeSeq (0b01#2 ++ low)) := by
  rw [decode, State.sel, hp, hl]
  rfl

/-- A pass ends with a kind-3 block, so the tail of the other kinds leaves `PHASE` (41_group_encoder.md R81). -/
theorem advance_phase_of_low {low : BitVec 2} (hl : s.blk.extractLsb' 0 2 = low) (h3 : low ≠ 0b11#2) :
    (advance s).phase = s.phase := by
  have hmod : low.toNat = s.blk.toNat % 4 := by rw [← hl, blk_low_toNat]
  have hne : low.toNat ≠ 3 := fun h => h3 (BitVec.eq_of_toNat_eq h)
  rw [advance_phase, if_neg (by omega)]

theorem execEncPi_eq_next :
    exec .encPi s = .next t ↔ s.blk.toNat < s.cfg.grpSize ∧
      t = advance { s with grp := s.grp.write s.blk.toNat (piWord s.piCode s.piCheck) } :=
  store_advance_eq_next

theorem execEncCtrl_eq_next :
    exec .encCtrl s = .next t ↔ s.blk.toNat < s.cfg.grpSize ∧
      t = advance { s with grp := s.grp.write s.blk.toNat (controlWord s.cfg s.seg) } :=
  store_advance_eq_next

/-- `ENC.CHD` is a character block step and the end of the packet (41_group_encoder.md R85). -/
theorem execEncChd_eq_next :
    exec .encChd s = .next t ↔ ∃ u, encodeChars .d s = .next u ∧ t = nextSegment u := by
  simp only [exec, execEncChd, thenDo_eq_next, Host.Outcome.next.injEq, eq_comm (b := t)]

end Operations

/-- Settles O13: the stored word is `piWord`, and a kind-0 block is never the last. -/
theorem encPiWritesThePiBlock : Obligations.EncPiWritesThePiBlock := by
  refine ⟨fun s hp hl => decode_sel_of_encode hp hl, fun s hb => ⟨_, execEncPi_eq_next.2 ⟨hb, rfl⟩, ?_⟩⟩
  exact ⟨Memory.read_write_same _ _ _, fun a ha => Memory.read_write_other _ _ ha, rfl, rfl,
    fun hl => advance_phase_of_low hl (by decide), rfl⟩

/-- Settles O14: the stored word is `controlWord`, and a kind-1 block is never the last. -/
theorem encCtrlWritesTheControlBlock : Obligations.EncCtrlWritesTheControlBlock := by
  refine ⟨fun s hp hl => decode_sel_of_encode hp hl, fun s hb => ⟨_, execEncCtrl_eq_next.2 ⟨hb, rfl⟩, ?_⟩⟩
  exact ⟨Memory.read_write_same _ _ _, fun a ha => Memory.read_write_other _ _ ha, rfl, rfl,
    fun hl => advance_phase_of_low hl (by decide), rfl⟩

/-- Settles O15: `encodeChars_eq_next` under offset C, and a kind-2 block is never the last. -/
theorem encChcWritesCharacterBlockC : Obligations.EncChcWritesCharacterBlockC := by
  refine ⟨fun s hp hl => decode_sel_of_encode hp hl, fun s hb hm => ⟨_, encodeChars_eq_next.2 ⟨hm, hb, rfl⟩, ?_⟩⟩
  exact ⟨Memory.read_write_same _ _ _, fun a ha => Memory.read_write_other _ _ ha, rfl, rfl, rfl,
    fun hl => advance_phase_of_low hl (by decide), rfl, rfl⟩

/-- Settles O16: `encodeChars_eq_next` under offset D, then the next segment; `SEG` wraps at its four bits. -/
theorem encChdWritesCharacterBlockDAndEndsThePacket : Obligations.EncChdWritesCharacterBlockDAndEndsThePacket := by
  refine ⟨fun s hp hl => decode_sel_of_encode hp hl,
    fun s hb hm => ⟨_, execEncChd_eq_next.2 ⟨_, encodeChars_eq_next.2 ⟨hm, hb, rfl⟩, rfl⟩, ?_⟩⟩
  exact ⟨Memory.read_write_same _ _ _, fun a ha => Memory.read_write_other _ _ ha, rfl, BitVec.toNat_add _ _, rfl, rfl,
    rfl, rfl⟩

/-! ### Validity (41_group_encoder.md R88) -/

/-- A block is valid when the checkword it carries is the CRC of the information word it carries. -/
theorem validWord_encodeBlock (c : Config) (k : BlockKind) (b : Block) :
    validWord c k (encodeBlock b) ↔ b.cw = crc c b.info k.offset := by
  rw [validWord, wordCw_encodeBlock, wordInfo_encodeBlock]

theorem controlWord_valid (c : Config) (seg : BitVec 4) : validWord c .control (controlWord c seg) :=
  (validWord_encodeBlock _ _ _).2 rfl

theorem charWord_valid (c : Config) (k : BlockKind) (hi lo : Byte) : validWord c k (charWord c k.offset hi lo) :=
  (validWord_encodeBlock _ _ _).2 rfl

/-- A character block step stores a word valid for the kind whose offset it uses. -/
theorem encodeChars_stores_valid {k : BlockKind} {s t : State} (h : encodeChars k.offset s = .next t) :
    ∃ w, t.grp.read s.blk.toNat = some w ∧ validWord s.cfg k w := by
  obtain ⟨_, _, rfl⟩ := encodeChars_eq_next.1 h
  exact ⟨_, Memory.read_write_same _ _ _, charWord_valid _ _ _ _⟩

/-- Settles O17: the computed checkwords by the lemmas above; for kind 0 the validity of the copied one is L-PICHECK. -/
theorem encodedWordsAreValidForTheirKind : Obligations.EncodedWordsAreValidForTheirKind := by
  refine ⟨fun s t h => ?_, fun s t h => ?_, fun s t h => ?_, fun s t h => ?_⟩
  · obtain ⟨_, rfl⟩ := execEncCtrl_eq_next.1 h
    exact ⟨_, Memory.read_write_same _ _ _, controlWord_valid _ _⟩
  · exact encodeChars_stores_valid (k := .charC) h
  · obtain ⟨u, hu, rfl⟩ := execEncChd_eq_next.1 h
    exact encodeChars_stores_valid (k := .charD) (t := u) hu
  · obtain ⟨_, rfl⟩ := execEncPi_eq_next.1 h
    exact ⟨_, Memory.read_write_same _ _ _, validWord_encodeBlock _ _ _⟩

end Sys2Proof.Machine
end

section
/-! SUPPORT. The Differential Bitstream Packer (42_diff_packer.md): the closed form's bits and bytes, and `PACK.BIT` and
`PACK.WORD` from any state. -/

namespace Sys2Proof.Machine

/-! ### The closed form's bits (42_diff_packer.md R97, R100, R103) -/

@[simp] theorem outBit_zero (g : Nat → Word) : outBit g 0 = protoBit g 0 := Bool.xor_false _

@[simp] theorem outBit_succ (g : Nat → Word) (b : Nat) : outBit g (b + 1) = (protoBit g (b + 1) ^^ protoBit g b) := rfl

theorem undoDifferential_outBit (g : Nat → Word) (b : Nat) : undoDifferential (outBit g) b = protoBit g b := by
  induction b with
  | zero => exact outBit_zero g
  | succ b ih => rw [undoDifferential, ih, outBit_succ, Bool.xor_assoc, Bool.xor_self, Bool.xor_false]

/-- Settles O22: `undoDifferential_outBit`; in the overruled formula the middle protocol bit cancels. -/
theorem runningXorRecoversTheProtocolBits : Obligations.RunningXorRecoversTheProtocolBits := by
  refine fun g b => ⟨undoDifferential_outBit g b, ?_⟩
  rw [outBit_succ, outBit_succ, Bool.xor_assoc, ← Bool.xor_assoc (protoBit g (b + 1)), Bool.xor_self, Bool.false_xor]

theorem protoBit_of_complement {g g' : Nat → Word} (h : ∀ i, g' i = ~~~ g i) (b : Nat) :
    protoBit g' b = !protoBit g b := by
  have position : 31 - b % 26 < 32 := by omega
  simp [protoBit, h, position]

/-- Settles O24: both bits of an output bit after the first are complemented, and an exclusive-or is 1 where they
differ. -/
theorem outputMarksChangesOfTheProtocolBit : Obligations.OutputMarksChangesOfTheProtocolBit := by
  refine ⟨fun g g' h => ⟨?_, fun b => ?_⟩, fun g b => ?_⟩
  · rw [outBit_zero, outBit_zero, protoBit_of_complement h]
  · rw [outBit_succ, outBit_succ, protoBit_of_complement h, protoBit_of_complement h, Bool.not_xor_not]
  · rw [outBit_succ, bne_iff_ne]

/-! ### Which words a byte depends on (42_diff_packer.md R104) -/

theorem byteOf_congr {f f' : Nat → Bool} (h : ∀ k, k < 8 → f k = f' k) : byteOf f = byteOf f' := by
  refine BitVec.eq_of_getLsbD_eq fun i hi => ?_
  have bit := fun f : Nat → Bool => byteOf_bit f (k := 7 - i) (by omega)
  rw [Nat.sub_sub_self (by omega)] at bit
  rw [bit, bit, h _ (by omega)]

/-- A byte depends on its eight protocol bits and on the one before them. -/
theorem outByte_congr {g g' : Nat → Word} {j : Nat}
    (h : ∀ b, 8 * j ≤ b + 1 → b < 8 * j + 8 → protoBit g b = protoBit g' b) : outByte g j = outByte g' j := by
  refine byteOf_congr fun k hk => ?_
  have current := h (8 * j + k) (by omega) (by omega)
  cases hb : 8 * j + k with
  | zero => rw [outBit_zero, outBit_zero, ← hb, current]
  | succ b => rw [outBit_succ, outBit_succ, ← hb, current, h b (by omega) (by omega)]

/-- A protocol bit depends on its word alone. -/
theorem protoBit_congr {g g' : Nat → Word} {b : Nat} (h : g (b / 26) = g' (b / 26)) : protoBit g b = protoBit g' b := by
  rw [protoBit, protoBit, h]

/-- The protocol bits of a word are its bits 31:6 (30_encoding.md R60). -/
theorem protoBit_eq_extract (g : Nat → Word) (b : Nat) :
    protoBit g b = ((g (b / 26)).extractLsb' 6 26).getLsbD (25 - b % 26) := by
  have inside : 25 - b % 26 < 26 := by omega
  have position : 6 + (25 - b % 26) = 31 - b % 26 := by omega
  simp [protoBit, inside, position]

/-- Settles O23: no protocol bit is one of the bits 5:0. -/
theorem reservedBitsNeverReachTheOutput : Obligations.ReservedBitsNeverReachTheOutput :=
  fun g g' h _ => outByte_congr fun b _ _ => by rw [protoBit_eq_extract, protoBit_eq_extract, h]

/-- Settles O27: the bits that matter are the 104 of the packet, and the bit before them, which is bit 6 of a word. -/
theorem packetBytesDependOnThePacketAndOneBit : Obligations.PacketBytesDependOnThePacketAndOneBit := by
  refine fun g g' k hk hlast j hj => outByte_congr fun b hlo hhi => ?_
  by_cases hb : b < 104 * k
  · have word : b / 26 = 4 * k - 1 := by omega
    have position : 31 - b % 26 = 6 := by omega
    rw [protoBit, protoBit, word, position, hlast (by omega)]
  · have word : b / 26 = 4 * k + (b / 26 - 4 * k) := by omega
    refine protoBit_congr ?_
    rw [word, hk _ (by omega)]

/-! ### The packer as a function (42_diff_packer.md R100 to R102) -/

theorem length_packDifferential (pad : Nat → Bool) (ws : List Word) :
    (packDifferential pad ws).length = (26 * ws.length + 7) / 8 := by
  rw [packDifferential, List.length_map, List.length_range]

/-- The `104*n` bits of whole packets fill their bytes, so no pad bit occurs. -/
theorem packDifferential_of_packets (pad : Nat → Bool) {ws : List Word} {n : Nat} (h : ws.length = 4 * n) :
    packDifferential pad ws = (List.range (13 * n)).map (outByte fun i => ws.getD i 0) := by
  have bytes : (26 * ws.length + 7) / 8 = 13 * n := by omega
  rw [packDifferential, bytes]
  refine List.map_congr_left fun j hj => byteOf_congr fun k hk => if_pos ?_
  rw [List.mem_range] at hj
  omega

/-- Settles O25: `length_packDifferential` and `packDifferential_of_packets`. -/
theorem packedLengthAndNoPadForWholePackets : Obligations.PackedLengthAndNoPadForWholePackets :=
  ⟨length_packDifferential, fun pad _ _ h => packDifferential_of_packets pad h⟩

/-- Settles O26: both are whole packets, and the bytes of the first `n₁` packets depend on no later word. -/
theorem packedPassesExtend : Obligations.PackedPassesExtend := by
  intro pad ws n₁ n₂ hn hlen
  have short : (ws.take (4 * n₁)).length = 4 * n₁ := by rw [List.length_take, hlen]; omega
  rw [packDifferential_of_packets pad hlen, packDifferential_of_packets pad short, ← List.map_take, List.take_range,
    Nat.min_eq_left (by omega)]
  refine List.map_congr_left fun j hj => outByte_congr fun b _ hb => protoBit_congr ?_
  rw [List.mem_range] at hj
  rw [List.getD_eq_getElem?_getD, List.getD_eq_getElem?_getD, List.getElem?_take_of_lt (by omega)]

/-! ### `PACK.BIT` (42_diff_packer.md R98) -/

/-- Settles O19: where the cells exist the step is `afterBit`, whose fields are the statement's. -/
theorem packBitAppendsTheDifferentialBit : Obligations.PackBitAppendsTheDifferentialBit := by
  refine ⟨fun s hp => ⟨_, congrArg Except.ok (by rw [decodeSeq_sel, hp])⟩, fun lo s hw ho =>
    ⟨afterBit s, packOne_eq_next_afterBit.2 ⟨hw, ho, rfl⟩, rfl, shiftIn_bit_zero _ _,
      fun k hk => shiftIn_bit_succ _ _ hk, ?_, ?_, ?_, rfl, rfl⟩⟩
  · rw [afterBit_out, afterBit_optr, afterBit_nbits]
    split
    · next h7 =>
      exact ⟨Memory.read_write_same _ _ _, fun a ha => Memory.read_write_other _ _ ha, rfl, by rw [h7]; rfl⟩
    · exact ⟨rfl, rfl, rfl⟩
  · rw [afterBit_pos, afterBit_widx]
    split <;> exact ⟨rfl, rfl⟩
  · rw [afterBit_phase, afterBit_done]
    split <;> exact ⟨rfl, rfl⟩

/-! ### `PACK.WORD` (42_diff_packer.md R99)

Packing `k` bits is `afterBit^[k]` where every byte it completes exists. The 26 steps from `POS = 31` are 25 inside the
word, which leave `POS` at 6, and the step at position 6. -/

theorem afterBit_lastBit (s : State) : (afterBit s).lastBit = nextRaw s := rfl
theorem afterBit_draws (s : State) : (afterBit s).draws = s.draws + drawsFor (s.grp.read s.widx.toNat) := rfl

/-- From `s` to `t` only what the packer writes has changed, and the count of free values. -/
def PackerFrame (s t : State) : Prop :=
  t = { s with lastBit := t.lastBit, acc := t.acc, nbits := t.nbits, out := t.out, optr := t.optr, pos := t.pos,
               widx := t.widx, phase := t.phase, done := t.done, draws := t.draws }

theorem afterBit_iterate_frame (k : Nat) (s : State) : PackerFrame s (afterBit^[k] s) := by
  induction k with
  | zero => rfl
  | succ k ih =>
    rw [Function.iterate_succ_apply', show afterBit^[k] s = _ from ih]
    rfl

section Frame

variable (k : Nat) (s : State)

theorem afterBit_iterate_cfg : (afterBit^[k] s).cfg = s.cfg := by rw [show _ = _ from afterBit_iterate_frame k s]
theorem afterBit_iterate_grp : (afterBit^[k] s).grp = s.grp := by rw [show _ = _ from afterBit_iterate_frame k s]
theorem afterBit_iterate_msg : (afterBit^[k] s).msg = s.msg := by rw [show _ = _ from afterBit_iterate_frame k s]
theorem afterBit_iterate_pktCount : (afterBit^[k] s).pktCount = s.pktCount := by
  rw [show _ = _ from afterBit_iterate_frame k s]

end Frame

/-- `k` bits of a word are packed from `s` to `t`, and the word's last one is not. -/
structure InWord (s : State) (k : Nat) (t : State) : Prop where
  pos : t.pos.toNat + k = 31
  widx : t.widx = s.widx
  phase : t.phase = s.phase
  done : t.done = s.done
  draws : t.draws = s.draws + k * drawsFor (s.grp.read s.widx.toNat)

theorem InWord.next {s t : State} {k : Nat} (i : InWord s k t) (hg : t.grp = s.grp) (hk : k < 25) :
    InWord s (k + 1) (afterBit t) := by
  have pos := i.pos
  have h6 : t.pos ≠ 6#5 := by bv_omega
  have hl : ¬ AtLastBit t := fun h => h6 h.1
  refine ⟨?_, ?_, ?_, ?_, ?_⟩
  · rw [afterBit_pos, if_neg h6]
    bv_omega
  · rw [afterBit_widx, if_neg h6, i.widx]
  · rw [afterBit_phase, if_neg hl, i.phase]
  · rw [afterBit_done, if_neg hl, i.done]
  · rw [afterBit_draws, i.draws, hg, i.widx, Nat.succ_mul, Nat.add_assoc]

/-- From `POS = 31` the first 25 steps stay inside the word. -/
theorem inWord_iterate {s : State} (hpos : s.pos = 31#5) {k : Nat} (hk : k ≤ 25) : InWord s k (afterBit^[k] s) := by
  induction k with
  | zero => exact ⟨congrArg BitVec.toNat hpos, rfl, rfl, rfl, by simp⟩
  | succ k ih =>
    rw [Function.iterate_succ_apply']
    exact (ih (by omega)).next (afterBit_iterate_grp k s) hk

/-- `n` bits have gone to `OUT` from the cell `base` on: whole bytes below `OPTR`, the rest waiting. -/
structure BitCount (base n : Nat) (t : State) : Prop where
  optr : t.optr.toNat = base + n / 8
  nbits : t.nbits.toNat = n % 8

theorem bitCount_self (s : State) : BitCount s.optr.toNat s.nbits.toNat s := by
  have := s.nbits.isLt
  constructor <;> omega

section Count

variable {base n : Nat} {t : State} (c : BitCount base n t)
include c

theorem BitCount.nbits_eq_seven_iff : t.nbits = 7#3 ↔ n % 8 = 7 := by
  rw [← c.nbits]
  bv_omega

/-- The byte the next bit may complete exists. -/
theorem BitCount.byte_exists (room : base + (n + 1) / 8 ≤ t.cfg.outSize) :
    t.nbits = 7#3 → t.optr.toNat < t.cfg.outSize := by
  rw [c.nbits_eq_seven_iff, c.optr]
  omega

theorem BitCount.next (hc : t.cfg.wf = true) (room : base + (n + 1) / 8 ≤ t.cfg.outSize) :
    BitCount base (n + 1) (afterBit t) := by
  have hs := c.nbits_eq_seven_iff
  have optr := afterBit_optr_toNat (outSize_lt_of_wf hc) (c.byte_exists room)
  have nbits := afterBit_nbits_toNat (s := t)
  rw [c.optr] at optr
  rw [c.nbits] at nbits
  by_cases h7 : t.nbits = 7#3
  · have := hs.1 h7
    rw [if_pos h7] at optr nbits
    constructor <;> omega
  · have := mt hs.2 h7
    rw [if_neg h7] at optr nbits
    constructor <;> omega

end Count

section Word

variable {s : State} (hc : s.cfg.wf = true) (hpos : s.pos = 31#5) (hw : s.widx.toNat < s.cfg.grpSize)
  (ho : s.optr.toNat + (s.nbits.toNat + 26) / 8 ≤ s.cfg.outSize)

include ho in
/-- The byte that the step after `k` bits may complete lies in `OUT`. -/
theorem room_of_lt {k : Nat} (hk : k < 26) :
    s.optr.toNat + (s.nbits.toNat + k + 1) / 8 ≤ (afterBit^[k] s).cfg.outSize := by
  rw [afterBit_iterate_cfg]
  omega

include hc ho in
theorem bitCount_iterate {k : Nat} (hk : k ≤ 26) : BitCount s.optr.toNat (s.nbits.toNat + k) (afterBit^[k] s) := by
  induction k with
  | zero => exact bitCount_self s
  | succ k ih =>
    rw [Function.iterate_succ_apply']
    exact (ih (by omega)).next (by rw [afterBit_iterate_cfg]; exact hc) (room_of_lt ho hk)

include hc hpos hw ho

theorem packMany_eq_next_iterate {k : Nat} (hk : k ≤ 26) : packMany k s = .next (afterBit^[k] s) := by
  induction k with
  | zero => rfl
  | succ k ih =>
    have cell : (afterBit^[k] s).widx.toNat < (afterBit^[k] s).cfg.grpSize := by
      rw [(inWord_iterate hpos (by omega)).widx, afterBit_iterate_cfg]
      exact hw
    have byte := (bitCount_iterate hc ho (by omega)).byte_exists (room_of_lt ho hk)
    rw [packMany_add, ih (by omega), thenDo_next, packMany, packOne_eq_next_afterBit.2 ⟨cell, byte, rfl⟩,
      Function.iterate_succ_apply']
    rfl

theorem execPackWord_eq_next : exec .packWord s = .next (afterBit^[26] s) :=
  packMany_eq_next_iterate hc hpos hw ho (Nat.le_refl 26)

end Word

/-- The word's 26 bits are packed from `s` to `t`: the next word begins or, after the last one, `FINISH` is done. -/
structure WordDone (s t : State) : Prop where
  pos : t.pos = 31#5
  widx : t.widx = s.widx + 1
  finish : if s.widx.toNat + 1 = 4 * s.pktCount.toNat then t.phase = .idle ∧ t.done = true
    else t.phase = s.phase ∧ t.done = s.done
  draws : t.draws = s.draws + 26 * drawsFor (s.grp.read s.widx.toNat)

theorem wordDone_iterate {s : State} (hpos : s.pos = 31#5) : WordDone s (afterBit^[26] s) := by
  have i := inWord_iterate hpos (Nat.le_refl 25)
  have hp := i.pos
  have h6 : (afterBit^[25] s).pos = 6#5 := by bv_omega
  have last : AtLastBit (afterBit^[25] s) ↔ s.widx.toNat + 1 = 4 * s.pktCount.toNat := by
    simp only [AtLastBit, h6, i.widx, afterBit_iterate_pktCount, true_and]
  rw [Function.iterate_succ_apply']
  refine ⟨?_, ?_, ?_, ?_⟩
  · rw [afterBit_pos, if_pos h6]
  · rw [afterBit_widx, if_pos h6, i.widx]
  · rw [afterBit_phase, afterBit_done, i.phase, i.done]
    simp only [last]
    split <;> exact ⟨rfl, rfl⟩
  · rw [afterBit_draws, i.draws, afterBit_iterate_grp, i.widx]
    omega

/-- Settles O21: the steps are `packMany` by `repeat_packBit`, and `packMany` completes by `execPackWord_eq_next`. -/
theorem packWordCompletesOnAnyWord : Obligations.PackWordCompletesOnAnyWord := by
  refine ⟨fun s => (repeat_packBit 0 26 s).symm, fun s hc hpos hw ho => ?_⟩
  have word := wordDone_iterate hpos
  have count := bitCount_iterate hc ho (Nat.le_refl 26)
  exact ⟨_, execPackWord_eq_next hc hpos hw ho, word.pos, word.widx, count.optr, count.nbits,
    afterBit_iterate_grp 26 s, afterBit_iterate_msg 26 s, word.draws⟩

/-! #### The bits of a word in `OUT` and `ACC` -/

/-- From `s` to `t` the packer has come to hold the first `n` bits of `f`: whole bytes in `OUT` from `s`'s `OPTR` on, the
rest in `ACC`, the newest at the bottom; the other cells of `OUT` are those of `s`. -/
structure PacksBits (f : Nat → Bool) (s : State) (n : Nat) (t : State) : Prop extends
    BitCount s.optr.toNat n t where
  bytes : ∀ j, j < n / 8 → t.out.read (s.optr.toNat + j) = some (byteOf fun k => f (8 * j + k))
  others : ∀ a, a < s.optr.toNat ∨ s.optr.toNat + n / 8 ≤ a → t.out.read a = s.out.read a
  waiting : ∀ k, k < n % 8 → t.acc.getLsbD k = f (n - 1 - k)

section Packs

variable {f : Nat → Bool} {s t : State} {n : Nat} (p : PacksBits f s n t)
  (hbit : diffBit (nextRaw t) t.lastBit = f n)
include p hbit

/-- `ACC` after the step holds the newest bits of `f`, as `nextAcc_bit` says of the closed form's in a pass. -/
theorem PacksBits.nextAcc_bit {k : Nat} (hk : k ≤ n % 8) : (nextAcc t).getLsbD k = f (n - k) := by
  cases k with
  | zero => rw [nextAcc, shiftIn_bit_zero, hbit, Nat.sub_zero]
  | succ k => rw [nextAcc, shiftIn_bit_succ _ _ (by omega), p.waiting k (by omega), Nat.sub_sub, Nat.add_comm 1 k]

/-- The eighth bit completes a byte of `f`. -/
theorem PacksBits.nextAcc_eq_byteOf (h7 : n % 8 = 7) : nextAcc t = byteOf fun k => f (8 * (n / 8) + k) := by
  refine BitVec.eq_of_getLsbD_eq fun i hi => ?_
  have age : n - i = 8 * (n / 8) + (7 - i) := by omega
  have bit := byteOf_bit (fun k => f (8 * (n / 8) + k)) (k := 7 - i) (by omega)
  rw [p.nextAcc_bit hbit (by omega), age, ← bit, Nat.sub_sub_self (by omega)]

theorem PacksBits.next (hc : t.cfg.wf = true) (room : s.optr.toNat + (n + 1) / 8 ≤ t.cfg.outSize) :
    PacksBits f s (n + 1) (afterBit t) := by
  have hs := p.nbits_eq_seven_iff
  refine ⟨p.toBitCount.next hc room, fun j hj => ?_, fun a ha => ?_, fun k hk => p.nextAcc_bit hbit (by omega)⟩
  · rw [afterBit_out]
    split
    · next h7 =>
      rw [Memory.read_write, p.optr]
      split
      · next heq => rw [Nat.add_left_cancel heq, p.nextAcc_eq_byteOf hbit (hs.1 h7)]
      · exact p.bytes j (by omega)
    · next h7 =>
      have := mt hs.2 h7
      exact p.bytes j (by omega)
  · rw [afterBit_out]
    split
    · next h7 =>
      have := hs.1 h7
      rw [Memory.read_write_other _ _ (by rw [p.optr]; omega)]
      exact p.others a (by omega)
    · exact p.others a (by omega)

end Packs

/-- Before the first step only the waiting bits are held. -/
theorem packsBits_self (s : State) (w : Word) : PacksBits (pendingBit s w) s s.nbits.toNat s := by
  have := s.nbits.isLt
  refine ⟨bitCount_self s, fun j hj => by omega, fun _ _ => rfl, fun k hk => ?_⟩
  rw [pendingBit, if_pos (by omega)]
  congr 1
  omega

section WrittenWord

variable {s : State} {w : Word} (hpos : s.pos = 31#5) (hr : s.grp.read s.widx.toNat = some w)
include hpos hr

theorem nextRaw_iterate {k : Nat} (hk : k ≤ 25) : nextRaw (afterBit^[k] s) = w.getLsbD (31 - k) := by
  have i := inWord_iterate hpos hk
  rw [nextRaw, protocolBit, grpWord, afterBit_iterate_grp, i.widx, hr, Option.getD_some, ← i.pos, Nat.add_sub_cancel]

/-- The step after `k` packed bits of the word appends its output bit at position `31 - k` (42_diff_packer.md R99). -/
theorem outputBit_iterate {k : Nat} (hk : k ≤ 25) :
    diffBit (nextRaw (afterBit^[k] s)) (afterBit^[k] s).lastBit = pendingBit s w (s.nbits.toNat + k) := by
  rw [nextRaw_iterate hpos hr hk, pendingBit, if_neg (by omega), Nat.add_sub_cancel_left, wordOutBit]
  congr 1
  cases k with
  | zero => rfl
  | succ k =>
    have above : 31 - (k + 1) + 1 = 31 - k := by omega
    rw [if_neg (by omega), above, Function.iterate_succ_apply', afterBit_lastBit, nextRaw_iterate hpos hr (by omega)]

theorem packsBits_iterate (hc : s.cfg.wf = true) (ho : s.optr.toNat + (s.nbits.toNat + 26) / 8 ≤ s.cfg.outSize)
    {k : Nat} (hk : k ≤ 26) : PacksBits (pendingBit s w) s (s.nbits.toNat + k) (afterBit^[k] s) := by
  induction k with
  | zero => exact packsBits_self s w
  | succ k ih =>
    rw [Function.iterate_succ_apply']
    exact (ih (by omega)).next (outputBit_iterate hpos hr (by omega)) (by rw [afterBit_iterate_cfg]; exact hc)
      (room_of_lt ho hk)

end WrittenWord

/-- Settles O20: `packsBits_iterate` for the bits, `wordDone_iterate` for the place; a written word draws no free
value. -/
theorem packWordPacksTheWordInClosedForm : Obligations.PackWordPacksTheWordInClosedForm := by
  intro s w hc hpos hw hr ho
  have word := wordDone_iterate hpos
  have bits := packsBits_iterate hpos hr hc ho (Nat.le_refl 26)
  have last : (afterBit^[26] s).lastBit = w.getLsbD 6 := by
    rw [Function.iterate_succ_apply', afterBit_lastBit, nextRaw_iterate hpos hr (Nat.le_refl 25)]
  have draws : (afterBit^[26] s).draws = s.draws := by rw [word.draws, hr]; rfl
  have frame := afterBit_iterate_frame 26 s
  refine ⟨_, execPackWord_eq_next hc hpos hw ho, word.pos, word.widx, last, bits.optr, bits.nbits, bits.bytes,
    bits.others, fun k hk => ?_, word.finish, ?_⟩
  · rw [bits.nbits] at hk
    exact bits.waiting k hk
  · rw [PackerFrame, word.pos, draws, ← hpos] at frame
    exact frame

end Sys2Proof.Machine
end

section
/-! SUPPORT. `START` and `FINISH` (43_sequencer_host.md R111, R114), the premises the steps of a pass rest on, and when
a host move completes (R118). -/

namespace Sys2Proof.Machine

/-! ### `START` (43_sequencer_host.md R111) -/

section Start

variable (rsv : BitVec 15) {s : State}

theorem execStart_of_busy (hb : s.phase ≠ .idle) : exec (.start rsv) s = .next s := if_pos ((busy_iff s).2 hb)

theorem execStart_of_idle (hi : s.phase = .idle) :
    exec (.start rsv) s = if s.countOk then .next (beginPass s) else .refused .badPacketCount :=
  if_neg (by simpa using hi)

theorem execStart_of_count (hi : s.phase = .idle) (hc : LCount s) : exec (.start rsv) s = .next (beginPass s) :=
  (execStart_of_idle rsv hi).trans (if_pos ((countOk_iff s).2 hc))

theorem execStart_of_bad_count (hi : s.phase = .idle) (hc : ¬ LCount s) :
    exec (.start rsv) s = .refused .badPacketCount :=
  (execStart_of_idle rsv hi).trans (if_neg (mt (countOk_iff s).1 hc))

end Start

theorem packerFresh_beginPass (s : State) : PackerFresh (beginPass s) := ⟨rfl, rfl, rfl, rfl, rfl, rfl⟩

theorem status_beginPass (s : State) : (beginPass s).status = 0x0001#16 := by
  rw [State.status, State.busy, beginPass_done, beginPass_phase]
  rfl

/-- Settles O30: the value decodes by its bit 0; `START` by the phase and L-COUNT. -/
theorem startBeginsIgnoresOrRefuses : Obligations.StartBeginsIgnoresOrRefuses :=
  ⟨fun _ hv => ⟨_, decodeCtrl_eq_ok.2 ⟨hv, rfl⟩⟩, fun rsv s =>
    ⟨execStart_of_busy rsv, execStart_of_bad_count rsv, fun hi hc =>
      ⟨beginPass s, execStart_of_count rsv hi hc, packerFresh_beginPass s, rfl, rfl, rfl, rfl, rfl, status_beginPass s,
        rfl⟩⟩⟩

/-- A value with bit 0 set, written to `CTRL`, is `START` (10_state.md R15). -/
theorem hostMove_start {v : BitVec 16} (hv : v.getLsbD 0 = true) (s : State) :
    hostMove (.writeReg .ctrl v) s = exec (.start (v.extractLsb' 1 15)) s :=
  hostWriteCtrl_of_ok (decodeCtrl_eq_ok.2 ⟨hv, rfl⟩)

/-! ### The cells of a pass exist (20_memory.md R30, under L-COUNT) -/

section Sizes

variable {s : State} (hc : LCount s)
include hc

theorem LCount.msg_exists : 4 * s.pktCount.toNat ≤ s.cfg.msgSize := Nat.mul_le_mul_left 4 hc.2

theorem LCount.grp_exists : 4 * s.pktCount.toNat ≤ s.cfg.grpSize := Nat.mul_le_mul_left 4 hc.2

theorem LCount.out_exists : 13 * s.pktCount.toNat ≤ s.cfg.outSize := Nat.mul_le_mul_left 13 hc.2

end Sizes

/-! ### The last bit (43_sequencer_host.md R114) -/

theorem status_of_done {s : State} (hp : s.phase = .idle) (hd : s.done = true) : s.status = 0x0002#16 := by
  rw [State.status, State.busy, hp, hd]
  rfl

/-- Before the last bit all the others are packed. -/
theorem packedBits_last {s : State} (hl : AtLastBit s) : packedBits s + 1 = 104 * s.pktCount.toNat := by
  obtain ⟨hpos, hwidx⟩ := hl
  rw [packedBits, hpos, BitVec.toNat_ofNat]
  omega

section LastBit

variable {s : State} (p : PackInv s)
include p

/-- The packer's cells exist all through a pass (42_diff_packer.md R106). -/
theorem PackInv.packOne_completes (hc : LCount s) : packOne s = .next (afterBit s) := by
  have word := p.widx
  have byte := p.optr
  have bits := p.packedBits_lt
  have grp := hc.grp_exists
  have out := hc.out_exists
  exact packOne_eq_next_afterBit.2 ⟨by omega, fun _ => by omega, rfl⟩

/-- The last bit completes the last byte of the pass (42_diff_packer.md R101). -/
theorem PackInv.last_byte (hc : LCount s) (hl : AtLastBit s) :
    (afterBit s).out.read (13 * s.pktCount.toNat - 1) = some (afterBit s).acc := by
  have bits := packedBits_last hl
  have some_packet := hc.1
  have eighth : s.nbits = 7#3 := p.nbits_eq_seven_iff.2 (by omega)
  have byte : 13 * s.pktCount.toNat - 1 = s.optr.toNat := by rw [p.optr]; omega
  rw [afterBit_out, if_pos eighth, byte]
  exact Memory.read_write_same _ _ _

end LastBit

/-- Settles O29: `FINISH` by its two writes; the last bit by `afterBit`, and in a state of the invariant by what the
pass leaves (`afterBit_finishedInv`) and the byte it completes. -/
theorem finishSetsDoneAndClearsBusy : Obligations.FinishSetsDoneAndClearsBusy := by
  refine ⟨fun s => ⟨finishPass s, rfl, rfl, rfl, rfl, status_of_done rfl rfl, rfl, rfl⟩, fun lo s t hpos hw h => ?_,
    fun lo s h hp hpos hw => ?_⟩
  · obtain ⟨_, _, rfl⟩ := packOne_eq_next_afterBit.1 h
    have idle : (afterBit s).phase = .idle := if_pos ⟨hpos, hw⟩
    have done : (afterBit s).done = true := if_pos ⟨hpos, hw⟩
    exact ⟨idle, done, status_of_done idle done⟩
  · have p := h.pack hp
    have hc := h.count (by simp [hp])
    have hl : AtLastBit s := ⟨hpos, hw⟩
    have f := afterBit_finishedInv p hc hl
    exact ⟨_, p.packOne_completes hc, if_pos hl, if_pos hl, p.last_byte hc hl, f.optr, f.nbits, f.widx, f.pos⟩

/-! ### Host moves (43_sequencer_host.md R118) -/

/-- Settles O42: such a move only reads (`hostMove_busy_onlyAnswers`). -/
theorem hostMovesWhileBusyChangeNoMachineState : Obligations.HostMovesWhileBusyChangeNoMachineState := by
  intro s t m ts hb hs hr h
  rw [step_of_host hs] at h
  exact hostMove_busy_onlyAnswers (s := { s with turns := ts }) hb hr h

theorem writeMsg_missing {a : Nat} {b : Byte} {s : State} (h : s.cfg.msgSize ≤ a) :
    writeMsg a b s = .fault (.noSuchCell .msg a) :=
  if_neg (Nat.not_lt.2 h)

theorem readOut_missing {a : Nat} {s : State} (h : s.cfg.outSize ≤ a) : readOut a s = .fault (.noSuchCell .out a) :=
  if_neg (Nat.not_lt.2 h)

/-! A move at a cell that does not exist stops in its access, also where a write would be ignored (entry 16). -/

section Missing

variable {a : Nat} {s : State}

theorem hostWriteMsg_missing (b : Byte) (h : s.cfg.msgSize ≤ a) :
    hostWriteMsg a b s = .fault (.noSuchCell .msg a) := by
  rw [hostWriteMsg, writeMsg_missing h, thenDo_fault]

theorem hostReadMsg_missing (h : s.cfg.msgSize ≤ a) : hostReadMsg a s = .fault (.noSuchCell .msg a) := by
  rw [hostReadMsg, readMsg_missing h, thenDo_fault]

theorem hostWriteGrp_missing (w : Word) (h : s.cfg.grpSize ≤ a) :
    hostWriteGrp a w s = .fault (.noSuchCell .grp a) := by
  rw [hostWriteGrp, writeGrp_missing h, thenDo_fault]

theorem hostReadGrp_missing (h : s.cfg.grpSize ≤ a) : hostReadGrp a s = .fault (.noSuchCell .grp a) := by
  rw [hostReadGrp, readGrp_missing h, thenDo_fault]

theorem hostWriteOut_missing (b : Byte) (h : s.cfg.outSize ≤ a) :
    hostWriteOut a b s = .fault (.noSuchCell .out a) := by
  rw [hostWriteOut, writeOut_missing h, thenDo_fault]

theorem hostReadOut_missing (h : s.cfg.outSize ≤ a) : hostReadOut a s = .fault (.noSuchCell .out a) := by
  rw [hostReadOut, readOut_missing h, thenDo_fault]

end Missing

/-- A register read always completes. -/
theorem hostReadReg_completes (r : HostReg) (s : State) : ∃ t, hostReadReg r s = .next t := by
  cases r with
  | outLen =>
    cases hb : s.busy with
    | false => exact ⟨_, if_neg (by simp [hb])⟩
    | true => exact ⟨_, if_pos hb⟩
  | piCode | piCheck | pktCount | ctrl | status => exact ⟨_, rfl⟩

/-- A register write completes, but for a `START` that breaks L-COUNT. -/
theorem hostWriteReg_completes_or_refuses (r : HostReg) (v : BitVec 16) (s : State) :
    (∃ t, hostWriteReg r v s = .next t) ∨
      (hostWriteReg r v s = .refused .badPacketCount ∧ s.phase = .idle ∧ ¬ LCount s ∧ r = .ctrl ∧
        v.getLsbD 0 = true) := by
  cases r with
  | piCode | piCheck | pktCount | status | outLen => exact .inl ⟨_, rfl⟩
  | ctrl =>
    cases hv : v.getLsbD 0 with
    | false => exact .inl ⟨_, hostWriteCtrl_of_error (decodeCtrl_eq_error.2 ⟨hv, rfl⟩)⟩
    | true =>
      have start : hostWriteReg .ctrl v s = exec (.start (v.extractLsb' 1 15)) s := hostMove_start hv s
      rw [start]
      by_cases hi : s.phase = .idle
      · by_cases hc : LCount s
        · exact .inl ⟨_, execStart_of_count _ hi hc⟩
        · exact .inr ⟨execStart_of_bad_count _ hi hc, hi, hc, rfl, rfl⟩
      · exact .inl ⟨_, execStart_of_busy _ hi⟩

/-- Settles O44: a register move by the two lemmas above; a move at a cell completes where the cell exists, and
elsewhere stops in its access. -/
theorem hostMovesStopOnlyOnBadCountOrMissingCell : Obligations.HostMovesStopOnlyOnBadCountOrMissingCell := by
  intro s m ts hs
  rw [step_of_host hs]
  cases m with
  | writeReg r v =>
    rcases hostWriteReg_completes_or_refuses r v { s with turns := ts } with ht | ⟨ht, hi, hc, rfl, hv⟩
    · exact .inl ht
    · exact .inr (.inl ⟨ht, hi, hc, v, rfl, hv⟩)
  | readReg r => exact .inl (hostReadReg_completes r _)
  | writeMsg a b =>
    rcases Nat.lt_or_ge a s.cfg.msgSize with ha | ha
    · exact .inl ⟨_, hostWriteMsg_of_lt b ha⟩
    · exact .inr (.inr (.inl ⟨a, hostWriteMsg_missing _ ha, ha, .inr ⟨b, rfl⟩⟩))
  | readMsg a =>
    rcases Nat.lt_or_ge a s.cfg.msgSize with ha | ha
    · exact .inl ⟨_, hostReadMsg_of_lt ha⟩
    · exact .inr (.inr (.inl ⟨a, hostReadMsg_missing ha, ha, .inl rfl⟩))
  | writeGrp a w =>
    rcases Nat.lt_or_ge a s.cfg.grpSize with ha | ha
    · exact .inl ⟨_, hostWriteGrp_of_lt w ha⟩
    · exact .inr (.inr (.inr (.inl
        ⟨a, hostWriteGrp_missing _ ha, ha, .inr ⟨w, rfl⟩⟩)))
  | readGrp a =>
    rcases Nat.lt_or_ge a s.cfg.grpSize with ha | ha
    · obtain ⟨t, ht, _⟩ := hostReadGrp_answersCell (s := { s with turns := ts }) ha
      exact .inl ⟨t, ht⟩
    · exact .inr (.inr (.inr (.inl ⟨a, hostReadGrp_missing ha, ha, .inl rfl⟩)))
  | writeOut a b =>
    rcases Nat.lt_or_ge a s.cfg.outSize with ha | ha
    · exact .inl ⟨_, hostWriteOut_of_lt b ha⟩
    · exact .inr (.inr (.inr (.inr
        ⟨a, hostWriteOut_missing _ ha, ha, .inr ⟨b, rfl⟩⟩)))
  | readOut a =>
    rcases Nat.lt_or_ge a s.cfg.outSize with ha | ha
    · obtain ⟨t, ht, _⟩ := hostReadOut_answersCell (s := { s with turns := ts }) ha
      exact .inl ⟨t, ht⟩
    · exact .inr (.inr (.inr (.inr ⟨a, hostReadOut_missing ha, ha, .inl rfl⟩)))
  | reset => exact .inl ⟨_, rfl⟩

end Sys2Proof.Machine
end

section
/-! SUPPORT. A pass under way (43_sequencer_host.md R113): its core steps complete, each leaves one less, and the last
one ends it; alone, or with host moves between them. -/

namespace Sys2Proof.Machine

/-! ### The core's step in `ENCODE` completes -/

/-- The count of free values after the block word at `BLK`: a character block draws for each of its characters that
nothing has written (10_state.md R27). -/
def drawsAfterBlock (s : State) : Nat :=
  match kindOf s.blk.toNat with
  | .pi | .control => s.draws
  | .charC | .charD => s.draws + drawsFor (s.msg.read s.mptr.toNat) + drawsFor (s.msg.read (s.mptr.toNat + 1))

/-- The two characters of a character block are among the message's `4 * PKT_COUNT` (41_group_encoder.md R86). -/
theorem EncodeInv.chars_exist {s : State} (e : EncodeInv s) (hk : 2 ≤ s.blk.toNat % 4) :
    s.mptr.toNat + 1 < 4 * s.pktCount.toNat := by
  have hb := e.blk
  rw [e.mptr, mptrDuring]
  split <;> omega

/-- The encoder's cells exist all through a pass (41_group_encoder.md R90). -/
theorem EncodeInv.coreTurn_completes {s : State} (e : EncodeInv s) (hc : LCount s) (hp : s.phase = .encode) :
    coreTurn s = .next (afterBlock s (drawsAfterBlock s)) := by
  have cell : s.blk.toNat < s.cfg.grpSize := e.blk.trans_le hc.grp_exists
  have chars (hk : 2 ≤ s.blk.toNat % 4) : s.mptr.toNat + 1 < s.cfg.msgSize :=
    (e.chars_exist hk).trans_le hc.msg_exists
  have kinds : s.blk.toNat % 4 = 0 ∨ s.blk.toNat % 4 = 1 ∨ s.blk.toNat % 4 = 2 ∨ s.blk.toNat % 4 = 3 := by omega
  rw [coreTurn_of_decode ((selectorNamesTheBlockKindsOperation s).2.1 hp)]
  rcases kinds with hk | hk | hk | hk <;> simp only [drawsAfterBlock, afterBlock, nextWord, kindOf, hk]
  · exact execEncPi_eq_next.2 ⟨cell, rfl⟩
  · exact execEncCtrl_eq_next.2 ⟨cell, rfl⟩
  · exact encodeChars_eq_next.2 ⟨chars (by omega), cell, rfl⟩
  · exact execEncChd_eq_next.2 ⟨_, encodeChars_eq_next.2 ⟨chars (by omega), cell, rfl⟩, rfl⟩

/-- In `PACK` likewise (42_diff_packer.md R106). -/
theorem PackInv.coreTurn_completes {s : State} (p : PackInv s) (hc : LCount s) (hp : s.phase = .pack) :
    coreTurn s = .next (afterBit s) := by
  rw [coreTurn, decodeSeq_sel, hp]
  exact p.packOne_completes hc

/-! ### A pass under way, and its end -/

/-- A pass is under way: the invariant of 10_state.md R28 as far as a pass needs it, whatever the buffers hold. -/
structure UnderWay (s : State) : Prop where
  count : LCount s
  phases : s.phase = .encode ∧ EncodeInv s ∨ s.phase = .pack ∧ PackInv s

/-- A pass of `n` packets has ended (43_sequencer_host.md R114). -/
structure Ended (n : Nat) (s : State) : Prop where
  phase : s.phase = .idle
  done : s.done = true
  finished : FinishedInv n s

theorem underWay_of_inv {s : State} (h : Inv s) (hb : s.phase ≠ .idle) : UnderWay s where
  count := h.count hb
  phases := by
    cases hp : s.phase with
    | idle => exact absurd hp hb
    | encode => exact .inl ⟨rfl, h.encode hp⟩
    | pack => exact .inr ⟨rfl, h.pack hp⟩
    | reserved => exact absurd hp h.phase

theorem underWay_beginPass {s : State} (hc : LCount s) : UnderWay (beginPass s) where
  count := hc
  phases := .inl ⟨rfl,
    { blk := Nat.mul_pos (by decide) hc.1
      seg := by simp
      mptr := by simp [mptrDuring]
      fresh := packerFresh_beginPass s }⟩

theorem UnderWay.busy {s : State} (u : UnderWay s) : s.phase ≠ .idle := by
  rcases u.phases with ⟨hp, _⟩ | ⟨hp, _⟩ <;> simp [hp]

/-- A pass under way reads none of the model's own fields. -/
theorem UnderWay.own {s : State} (u : UnderWay s) (ts : List Turn) (a : Option Answer) (d : Nat) :
    UnderWay { s with turns := ts, answer := a, draws := d } where
  count := u.count
  phases := u.phases.imp (fun ⟨hp, e⟩ => ⟨hp, { e with fresh := { e.fresh with } }⟩) fun ⟨hp, p⟩ => ⟨hp, { p with }⟩

/-! ### The steps left -/

theorem stepsLeft_encode {s : State} (hp : s.phase = .encode) :
    stepsLeft s = 4 * s.pktCount.toNat - s.blk.toNat + 104 * s.pktCount.toNat := by
  rw [stepsLeft, hp]

theorem stepsLeft_pack {s : State} (hp : s.phase = .pack) : stepsLeft s = 104 * s.pktCount.toNat - packedBits s := by
  rw [stepsLeft, hp]

theorem stepsLeft_idle {s : State} (hp : s.phase = .idle) : stepsLeft s = 0 := by
  rw [stepsLeft, hp]

/-- A whole pass: `4` block words and `104` bits a packet. -/
theorem stepsLeft_beginPass (s : State) : stepsLeft (beginPass s) = 108 * s.pktCount.toNat := by
  rw [stepsLeft_encode rfl, beginPass_pktCount, beginPass_blk, BitVec.toNat_ofNat]
  omega

theorem afterBlock_pktCount (s : State) (d : Nat) : (afterBlock s d).pktCount = s.pktCount := rfl

theorem afterBit_pktCount (s : State) : (afterBit s).pktCount = s.pktCount := rfl

/-- What every core step of a pass does: one step less is left, and the pass goes on or has ended. -/
structure PassStep (s t : State) : Prop where
  turns : t.turns = s.turns
  pktCount : t.pktCount = s.pktCount
  left : stepsLeft t + 1 = stepsLeft s
  goes : UnderWay t ∨ Ended s.pktCount.toNat t

theorem afterBlock_passStep {s : State} (hc : LCount s) (hp : s.phase = .encode) (e : EncodeInv s) (d : Nat) :
    PassStep s (afterBlock s d) := by
  have blk := e.blk
  by_cases last : s.blk.toNat + 1 = 4 * s.pktCount.toNat
  · have phase := (afterBlock_phase_eq_pack_iff hp d).2 last
    refine ⟨rfl, rfl, ?_, .inl ⟨hc, .inr ⟨phase, afterBlock_packInv e d last⟩⟩⟩
    rw [stepsLeft_pack phase, stepsLeft_encode hp, afterBlock_packedBits e d, afterBlock_pktCount]
    omega
  · have phase := (afterBlock_phase_eq_encode_iff hp d).2 last
    refine ⟨rfl, rfl, ?_, .inl ⟨hc, .inl ⟨phase, afterBlock_encodeInv e d last⟩⟩⟩
    rw [stepsLeft_encode phase, stepsLeft_encode hp, e.blk_next, afterBlock_pktCount]
    omega

theorem afterBit_passStep {s : State} (hc : LCount s) (hp : s.phase = .pack) (p : PackInv s) :
    PassStep s (afterBit s) := by
  by_cases last : AtLastBit s
  · have phase : (afterBit s).phase = .idle := if_pos last
    refine ⟨rfl, rfl, ?_, .inr ⟨phase, if_pos last, afterBit_finishedInv p hc last⟩⟩
    have bits := packedBits_last last
    rw [stepsLeft_idle phase, stepsLeft_pack hp]
    omega
  · have phase : (afterBit s).phase = .pack := (if_neg last).trans hp
    refine ⟨rfl, rfl, ?_, .inl ⟨hc, .inr ⟨phase, afterBit_packInv p last⟩⟩⟩
    have bits := p.packedBits_lt
    rw [stepsLeft_pack phase, stepsLeft_pack hp, p.packedBits_next, afterBit_pktCount]
    omega

theorem UnderWay.coreTurn_passStep {s : State} (u : UnderWay s) : ∃ t, coreTurn s = .next t ∧ PassStep s t := by
  rcases u.phases with ⟨hp, e⟩ | ⟨hp, p⟩
  · exact ⟨_, e.coreTurn_completes u.count hp, afterBlock_passStep u.count hp e _⟩
  · exact ⟨_, p.coreTurn_completes u.count hp, afterBit_passStep u.count hp p⟩

theorem UnderWay.stepsLeft_pos {s : State} (u : UnderWay s) : 0 < stepsLeft s := by
  obtain ⟨t, _, stepped⟩ := u.coreTurn_passStep
  exact stepped.left ▸ Nat.succ_pos _

theorem Ended.stepsLeft_eq_zero {n : Nat} {s : State} (e : Ended n s) : stepsLeft s = 0 := stepsLeft_idle e.phase

/-! ### Runs of core steps alone -/

theorem run_succ {k : Nat} {s t : State} (h : step s = .next t) :
    Host.Core.run Sys2Proof.core (k + 1) s = Host.Core.run Sys2Proof.core k t := by
  rw [Nat.add_comm]
  refine run_add Sys2Proof.core k ?_
  simp only [Host.Core.run, core, h]

/-- `P` is kept by every core step of a pass. -/
def KeptByCore (P : State → Prop) : Prop := ∀ s t, UnderWay s → P s → coreTurn s = .next t → P t

/-- With no turn waiting, a pass under way is still under way before each of the steps left. -/
theorem UnderWay.run_lt {s : State} (u : UnderWay s) (hs : s.turns = []) {k : Nat} (hk : k < stepsLeft s) :
    ∃ t, Host.Core.run Sys2Proof.core k s = .next t ∧ UnderWay t := by
  induction k generalizing s with
  | zero => exact ⟨s, rfl, u⟩
  | succ k ih =>
    obtain ⟨t, ht, stepped⟩ := u.coreTurn_passStep
    rw [run_succ ((step_of_nil hs).trans ht)]
    have left := stepped.left
    rcases stepped.goes with go | stop
    · exact ih go (stepped.turns.trans hs) (by omega)
    · have := stop.stepsLeft_eq_zero
      omega

/-- After exactly the steps left it has ended, with whatever the core steps keep. -/
theorem UnderWay.run_stepsLeft {P : State → Prop} (kept : KeptByCore P) {s : State} (u : UnderWay s)
    (hs : s.turns = []) (h : P s) :
    ∃ t, Host.Core.run Sys2Proof.core (stepsLeft s) s = .next t ∧ Ended s.pktCount.toNat t ∧ t.turns = [] ∧ P t := by
  induction hk : stepsLeft s generalizing s with
  | zero => exact absurd hk u.stepsLeft_pos.ne'
  | succ k ih =>
    obtain ⟨t, ht, stepped⟩ := u.coreTurn_passStep
    have left : stepsLeft t = k := Nat.succ.inj (stepped.left.trans hk)
    have turns := stepped.turns.trans hs
    have holds := kept s t u h ht
    rw [run_succ ((step_of_nil hs).trans ht)]
    rcases stepped.goes with go | stop
    · exact stepped.pktCount ▸ ih go turns holds left
    · obtain rfl : k = 0 := left.symm.trans stop.stepsLeft_eq_zero
      exact ⟨t, rfl, stop, turns, holds⟩

/-- Settles O53: a busy state of the invariant is a pass under way. -/
theorem busyCoreReachesFinish : Obligations.BusyCoreReachesFinish := by
  intro s h hb hs
  have u := underWay_of_inv h hb
  refine ⟨fun k hk => ?_, ?_⟩
  · obtain ⟨t, ht, go⟩ := u.run_lt hs hk
    exact ⟨t, ht, go.busy⟩
  · obtain ⟨t, ht, stop, _⟩ := u.run_stepsLeft (P := fun _ => True) (fun _ _ _ _ _ => trivial) hs trivial
    exact ⟨t, ht, stop.phase, stop.done, stop.finished.optr⟩

/-! ### Runs with host moves between the core steps -/

/-- A host move of a pass under way completes and only reads (R113, R118). -/
theorem UnderWay.hostMove_reads {s : State} (u : UnderWay s) {m : HostMove} {ts : List Turn}
    (hs : s.turns = .host m :: ts) (hj : Turn.mayJoinPass s.cfg (.host m) = true) :
    ∃ a d, step s = .next { s with turns := ts, answer := a, draws := d } := by
  obtain ⟨cell, hr⟩ := (mayJoinPass_host s.cfg m).1 hj
  rcases hostMovesStopOnlyOnBadCountOrMissingCell s m ts hs with
    ⟨t, ht⟩ | ⟨_, hi, _⟩ | ⟨a, _, ha, hm⟩ | ⟨a, _, ha, hm⟩ | ⟨a, _, ha, hm⟩
  · have reads := hostMovesWhileBusyChangeNoMachineState s t m ts u.busy hs hr ht
    exact ⟨t.answer, t.draws, ht.trans (congrArg _ reads)⟩
  · exact absurd hi u.busy
  all_goals
    rcases hm with rfl | ⟨x, rfl⟩ <;> exact absurd (of_decide_eq_true cell) (Nat.not_lt.2 ha)

/-- The turns `us`, then `rest`, hold the `k` core steps a pass has left: all of them, the last one ending `us`, or
fewer with nothing after them, where the core then moves alone (entry 3). -/
def HoldsSteps (k : Nat) (us rest : List Turn) : Prop :=
  us.count .core < k ∧ rest = [] ∨ us.count .core = k ∧ us.getLast? = some .core

section Holds

variable {k : Nat} {us rest : List Turn}

theorem HoldsSteps.rest_of_nil (hk : 0 < k) (h : HoldsSteps k [] rest) : rest = [] := by
  rcases h with ⟨_, hr⟩ | ⟨hc, _⟩
  · exact hr
  · exact absurd hc hk.ne

/-- Where a core step follows the first turn, the first is not the last. -/
theorem getLast?_of_count {u : Turn} (hc : 0 < us.count .core) (hl : (u :: us).getLast? = some .core) :
    us.getLast? = some .core := by
  cases us with
  | nil => exact absurd hc (by decide)
  | cons v us => rwa [List.getLast?_cons_cons] at hl

theorem HoldsSteps.of_host {m : HostMove} (hk : 0 < k) (h : HoldsSteps k (.host m :: us) rest) :
    HoldsSteps k us rest := by
  rw [HoldsSteps, List.count_cons_of_ne (by simp)] at h
  exact h.imp_right fun ⟨hc, hl⟩ => ⟨hc, getLast?_of_count (hc ▸ hk) hl⟩

/-- After a core step that leaves some. -/
theorem HoldsSteps.of_core (hk : 0 < k) (h : HoldsSteps (k + 1) (.core :: us) rest) : HoldsSteps k us rest := by
  rw [HoldsSteps, List.count_cons_self, Nat.add_lt_add_iff_right, Nat.add_right_cancel_iff] at h
  exact h.imp_right fun ⟨hc, hl⟩ => ⟨hc, getLast?_of_count (hc ▸ hk) hl⟩

/-- After the last core step. -/
theorem HoldsSteps.nil_of_core (h : HoldsSteps 1 (.core :: us) rest) : us = [] := by
  rw [HoldsSteps, List.count_cons_self] at h
  rcases h with ⟨hc, _⟩ | ⟨hc, hl⟩
  · omega
  · cases us with
    | nil => rfl
    | cons v us =>
      rw [List.getLast?_cons_cons] at hl
      have := List.count_pos_iff.2 (List.mem_of_getLast? hl)
      omega

end Holds

/-- The turns of a pass, core steps and host moves: it ends after the core steps left and the host moves listed. -/
theorem UnderWay.run_interleaved {P : State → Prop} (kept : KeptByCore P)
    (own : ∀ s ts a d, P s → P { s with turns := ts, answer := a, draws := d }) {us rest : List Turn} {s : State}
    (u : UnderWay s) (h : P s) (hs : s.turns = us ++ rest) (hj : ∀ x ∈ us, x.mayJoinPass s.cfg = true)
    (hh : HoldsSteps (stepsLeft s) us rest) :
    ∃ t, Host.Core.run Sys2Proof.core (stepsLeft s + (us.length - us.count .core)) s = .next t ∧
      Ended s.pktCount.toNat t ∧ t.turns = rest ∧ P t := by
  induction us generalizing s with
  | nil =>
    obtain rfl := hh.rest_of_nil u.stepsLeft_pos
    exact u.run_stepsLeft kept hs h
  | cons x us ih =>
    rw [List.forall_mem_cons] at hj
    obtain ⟨joins, hj⟩ := hj
    have short := List.count_le_length (a := Turn.core) (l := us)
    cases x with
    | core =>
      let s' : State := { s with turns := us ++ rest }
      have u' : UnderWay s' := u.own _ s.answer s.draws
      obtain ⟨t, ht, stepped⟩ := u'.coreTurn_passStep
      have left : stepsLeft t + 1 = stepsLeft s := stepped.left
      have steps : stepsLeft s + ((Turn.core :: us).length - (Turn.core :: us).count .core) =
          stepsLeft t + (us.length - us.count .core) + 1 := by
        rw [List.length_cons, List.count_cons_self]
        omega
      have holds := kept s' t u' (own s _ s.answer s.draws h) ht
      rw [steps, run_succ ((step_of_core hs).trans ht)]
      rw [← left] at hh
      rcases stepped.goes with go | stop
      · have cfg : t.cfg = s'.cfg := exec_cfg (i := decodeSeq s'.sel) ht
        exact stepped.pktCount ▸ ih go holds stepped.turns (cfg ▸ hj) (hh.of_core go.stepsLeft_pos)
      · rw [stop.stepsLeft_eq_zero] at hh ⊢
        obtain rfl := hh.nil_of_core
        exact ⟨t, rfl, stop, stepped.turns, holds⟩
    | host m =>
      obtain ⟨a, d, ht⟩ := u.hostMove_reads hs joins
      have steps : stepsLeft s + ((Turn.host m :: us).length - (Turn.host m :: us).count .core) =
          stepsLeft s + (us.length - us.count .core) + 1 := by
        rw [List.length_cons, List.count_cons_of_ne (by simp)]
        omega
      rw [steps, run_succ ht]
      exact ih (u.own _ a d) (own s _ a d h) rfl hj (hh.of_host u.stepsLeft_pos)
    | named i => cases joins

end Sys2Proof.Machine
end

section
/-! SUPPORT. What a pass leaves (43_sequencer_host.md R115, R116): the closed form in `GRP` and `OUT`, every other cell
as it was, from any launch. -/

namespace Sys2Proof.Machine

/-! ### What a pass has produced so far -/

/-- A pass launched in `s₀` has come to `s`: the block words and bytes produced so far are the closed form's, and what
is not the pass's own is as in `s₀`. -/
structure Produced (msg : Nat → Byte) (s₀ s : State) : Prop where
  owned : hostOwned s = hostOwned s₀
  cfg : s.cfg = s₀.cfg
  seg : s.seg = s.blk.extractLsb' 2 4
  groups : GroupsInv msg s
  packed : s.phase ≠ .encode → OutInv (blockAt s.cfg s.piCode s.piCheck msg) s
  grpBeyond : ∀ i, 4 * s.pktCount.toNat ≤ i → s.grp.read i = s₀.grp.read i
  outBeyond : ∀ j, 13 * s.pktCount.toNat ≤ j → s.out.read j = s₀.out.read j

section Kept

variable {msg : Nat → Byte} {s₀ s : State}

theorem produced_beginPass (ts : List Turn) (hm : ∀ a, a < 4 * s.pktCount.toNat → s.msg.read a = some (msg a)) :
    Produced msg s (beginPass { s with turns := ts }) where
  owned := rfl
  cfg := rfl
  seg := by simp
  groups := ⟨hm, by simp⟩
  packed := fun hp => absurd rfl hp
  grpBeyond := fun _ _ => rfl
  outBeyond := fun _ _ => rfl

theorem Produced.own (d : Produced msg s₀ s) (ts : List Turn) (a : Option Answer) (k : Nat) :
    Produced msg s₀ { s with turns := ts, answer := a, draws := k } :=
  { d with groups := groupsInv_own d.groups ts a k, packed := fun hp => outInv_own (d.packed hp) ts a k }

theorem Produced.next_block (d : Produced msg s₀ s) (hp : s.phase = .encode) (e : EncodeInv s) (k : Nat)
    (hc : coreTurn s = .next (afterBlock s k)) : Produced msg s₀ (afterBlock s k) where
  owned := d.owned
  cfg := d.cfg
  seg := e.seg_next k
  groups := afterBlock_groupsInv e d.groups k
  packed := fun hq => (coreTurn_handOver e d.groups hc hp ((afterBlock_encode_or_pack hp k).resolve_left hq)).1
  grpBeyond := fun i hi => by
    rw [afterBlock_grp, Memory.read_write_other _ _ (e.blk.trans_le hi).ne']
    exact d.grpBeyond i hi
  outBeyond := d.outBeyond

theorem Produced.next_bit (d : Produced msg s₀ s) (hp : s.phase = .pack) (p : PackInv s) :
    Produced msg s₀ (afterBit s) where
  owned := d.owned
  cfg := d.cfg
  seg := d.seg
  groups := { d.groups with }
  packed := fun _ => afterBit_outInv p (d.packed (by simp [hp]))
  grpBeyond := d.grpBeyond
  outBeyond := fun j hj => by
    have bits := p.packedBits_lt
    have byte := p.optr
    rw [afterBit_pktCount] at hj
    rw [afterBit_out]
    split
    · rw [Memory.read_write_other _ _ (by omega)]
      exact d.outBeyond j hj
    · exact d.outBeyond j hj

end Kept

theorem produced_kept (msg : Nat → Byte) (s₀ : State) : KeptByCore (Produced msg s₀) := by
  intro s t u d hc
  rcases u.phases with ⟨hp, e⟩ | ⟨hp, p⟩
  · obtain ⟨_, k, rfl⟩ := coreTurn_encode hc hp
    exact d.next_block hp e k hc
  · obtain ⟨_, rfl⟩ := coreTurn_pack hc hp
    exact d.next_bit hp p

/-! ### A pass draws no free value (43_sequencer_host.md R116: it reads no cell that nothing has written) -/

theorem drawsFor_of_written {w : Nat} {c : Option (BitVec w)} {v : BitVec w} (h : c = some v) : drawsFor c = 0 := by
  rw [h]; rfl

theorem drawsAfterBlock_of_written {msg : Nat → Byte} {s : State} (e : EncodeInv s) (g : GroupsInv msg s) :
    drawsAfterBlock s = s.draws := by
  have kinds : s.blk.toNat % 4 = 0 ∨ s.blk.toNat % 4 = 1 ∨ 2 ≤ s.blk.toNat % 4 := by omega
  rcases kinds with hk | hk | hk
  · simp only [drawsAfterBlock, kindOf, hk]
  · simp only [drawsAfterBlock, kindOf, hk]
  · have chars := e.chars_exist hk
    have high := drawsFor_of_written (g.message s.mptr.toNat (by omega))
    have low := drawsFor_of_written (g.message (s.mptr.toNat + 1) chars)
    rw [drawsAfterBlock, high, low]
    split <;> rfl

theorem draws_kept (msg : Nat → Byte) (s₀ : State) :
    KeptByCore fun s => Produced msg s₀ s ∧ s.draws = s₀.draws := by
  rintro s t u ⟨d, draws⟩ hc
  refine ⟨produced_kept msg s₀ s t u d hc, ?_⟩
  rcases u.phases with ⟨hp, e⟩ | ⟨hp, p⟩
  · rw [e.coreTurn_completes u.count hp] at hc
    cases hc
    exact (drawsAfterBlock_of_written e d.groups).trans draws
  · rw [p.coreTurn_completes u.count hp] at hc
    cases hc
    have word := (d.packed (by simp [hp])).words _ p.widx
    rw [afterBit_draws, drawsFor_of_written word]
    exact draws

/-! ### The end of a pass -/

theorem FinishedInv.packedBits_eq {n : Nat} {s : State} (f : FinishedInv n s) : packedBits s = 104 * n := by
  rw [packedBits, f.widx, f.pos, BitVec.toNat_ofNat]
  omega

/-- What a pass launched in `s` with the message `msg` leaves in `t`. -/
structure ClosedForm (msg : Nat → Byte) (s t : State) : Prop where
  grp : ∀ i, t.grp.read i =
    if i < 4 * s.pktCount.toNat then some (blockAt s.cfg s.piCode s.piCheck msg i) else s.grp.read i
  out : ∀ j, t.out.read j =
    if j < 13 * s.pktCount.toNat then some (outByte (blockAt s.cfg s.piCode s.piCheck msg) j) else s.out.read j
  seg : t.seg.toNat = s.pktCount.toNat % 16
  lastBit : t.lastBit = protoBit (blockAt s.cfg s.piCode s.piCheck msg) (104 * s.pktCount.toNat - 1)
  owned : hostOwned t = hostOwned s
  cfg : t.cfg = s.cfg

/-- At the end the words and bytes produced so far are all of them. -/
theorem Produced.closedForm {msg : Nat → Byte} {s t : State} (d : Produced msg s t)
    (e : Ended s.pktCount.toNat t) : ClosedForm msg s t := by
  have f := e.finished
  have bits := f.packedBits_eq
  have code : t.piCode = s.piCode := congrArg (·.1) d.owned
  have check : t.piCheck = s.piCheck := congrArg (·.2.1) d.owned
  have count : t.pktCount = s.pktCount := congrArg (·.2.2.1) d.owned
  have packed := d.packed (by simp [e.phase])
  rw [d.cfg, code, check] at packed
  refine ⟨fun i => ?_, fun j => ?_, ?_, ?_, d.owned, d.cfg⟩
  · split
    · next hi => exact packed.words i (count ▸ hi)
    · next hi => exact d.grpBeyond i (count ▸ Nat.not_lt.1 hi)
  · split
    · next hj => exact packed.bytes j (by omega)
    · next hj => exact d.outBeyond j (count ▸ Nat.not_lt.1 hj)
  · rw [d.seg, BitVec.extractLsb'_toNat, Nat.shiftRight_eq_div_pow, f.blk]
    omega
  · have some_bit : 104 * s.pktCount.toNat = 104 * s.pktCount.toNat - 1 + 1 := by
      have := f.atLeastOne
      omega
    rw [packed.last, bits, some_bit]
    rfl

/-! ### Launches (43_sequencer_host.md R110, R111) -/

/-- The message of a launch is written (L-MSG). -/
theorem Launch.message {s : State} (l : Launch s) (a : Nat) (ha : a < 4 * s.pktCount.toNat) :
    s.msg.read a = some (msgByte s 0 a) := by
  obtain ⟨x, hx⟩ := Option.isSome_iff_exists.1 (l.msg a ha)
  rw [msgByte_of_written hx, hx]

section Launches

variable {s : State} (l : Launch s) {v : BitVec 16} (hv : v.getLsbD 0 = true)
include l hv

/-- The host's `START` begins the pass of a launch. -/
theorem Launch.step_start {ts : List Turn} (hs : s.turns = .host (.writeReg .ctrl v) :: ts) :
    step s = .next (beginPass { s with turns := ts }) := by
  rw [step_of_host hs, hostMove_start hv]
  exact execStart_of_count _ l.idle l.count

variable {msg : Nat → Byte} (hm : ∀ a, a < 4 * s.pktCount.toNat → s.msg.read a = some (msg a))
include hm

/-- A launch whose core is left to itself ends in the closed form (R116). -/
theorem Launch.run_alone (hs : s.turns = [.host (.writeReg .ctrl v)]) :
    ∃ t, Host.Core.run Sys2Proof.core (1 + 108 * s.pktCount.toNat) s = .next t ∧ Ended s.pktCount.toNat t ∧
      t.turns = [] ∧ ClosedForm msg s t ∧ t.draws = s.draws := by
  have u : UnderWay (beginPass { s with turns := [] }) := underWay_beginPass l.count
  obtain ⟨t, run, ended, turns, d, draws⟩ :=
    u.run_stepsLeft (draws_kept msg s) rfl ⟨produced_beginPass [] hm, rfl⟩
  rw [stepsLeft_beginPass] at run
  rw [Nat.add_comm, run_succ (l.step_start hv hs)]
  exact ⟨t, run, ended, turns, d.closedForm ended, draws⟩

/-- With host moves between the core steps it ends in the same closed form (R113). -/
theorem Launch.run_interleaved {us rest : List Turn} (hs : s.turns = .host (.writeReg .ctrl v) :: (us ++ rest))
    (hj : ∀ x ∈ us, x.mayJoinPass s.cfg = true) (hh : HoldsSteps (108 * s.pktCount.toNat) us rest) :
    ∃ t, Host.Core.run Sys2Proof.core (1 + 108 * s.pktCount.toNat + (us.length - us.count .core)) s = .next t ∧
      Ended s.pktCount.toNat t ∧ t.turns = rest ∧ ClosedForm msg s t := by
  have u : UnderWay (beginPass { s with turns := us ++ rest }) := underWay_beginPass l.count
  obtain ⟨t, run, ended, turns, d⟩ :=
    u.run_interleaved (produced_kept msg s) (fun _ ts a k d => d.own ts a k) (produced_beginPass _ hm) rfl hj
      (by rwa [stepsLeft_beginPass])
  rw [stepsLeft_beginPass] at run
  rw [Nat.add_assoc, Nat.add_comm, run_succ (l.step_start hv hs)]
  exact ⟨t, run, ended, turns, d.closedForm ended⟩

end Launches

/-! ### The spec's functions (41_group_encoder.md R86, 42_diff_packer.md R102) -/

/-- The packer as a function, on the encoder's words: the bytes of the closed form, and no pad bit. -/
theorem packDifferential_encodeGroups (pad : Nat → Bool) (c : Config) (piCode : BitVec 16) (piCheck : BitVec 10)
    (msg : Nat → Byte) (n : Nat) :
    packDifferential pad (encodeGroups c piCode piCheck msg n) =
      (List.range (13 * n)).map (outByte (blockAt c piCode piCheck msg)) := by
  have words : (encodeGroups c piCode piCheck msg n).length = 4 * n := by
    rw [encodeGroups, List.length_map, List.length_range]
  rw [packDifferential_of_packets pad words]
  refine List.map_congr_left fun j hj => outByte_congr fun b _ hb => protoBit_congr ?_
  rw [List.mem_range] at hj
  rw [List.getD_eq_getElem _ _ (by omega)]
  simp [encodeGroups]

/-- Settles O54: `Launch.run_alone`; the bytes in order are the spec's function of the words. -/
theorem passComputesTheClosedForm : Obligations.PassComputesTheClosedForm := by
  intro s v msg pad l hv hs hm
  obtain ⟨t, run, ended, turns, c, draws⟩ := l.run_alone hv hm hs
  refine ⟨t, run, ended.phase, ended.done, c.grp, c.out, ?_, ended.finished, c.seg, c.lastBit, c.owned, c.cfg, turns,
    draws⟩
  rw [packDifferential_encodeGroups, List.map_map]
  refine List.map_congr_left fun j hj => ?_
  rw [c.out, if_pos (List.mem_range.1 hj)]
  rfl

/-- Settles O56: `Launch.run_interleaved`. -/
theorem passIsTheSameUnderAnyInterleaving : Obligations.PassIsTheSameUnderAnyInterleaving := by
  intro s v us rest msg l hv hs hj hh hm
  obtain ⟨t, run, ended, turns, c⟩ := l.run_interleaved hv hm hs hj hh
  exact ⟨t, run, ended.phase, ended.done, c.grp, c.out, ended.finished, c.seg, c.lastBit, c.owned, c.cfg, turns⟩

/-- Settles O55: both passes end in the closed form of the data they share. -/
theorem passForgetsEarlierPasses : Obligations.PassForgetsEarlierPasses := by
  intro s s' v v' l l' hv hv' hs hs' cfg code check count same
  have message (a : Nat) (ha : a < 4 * s'.pktCount.toNat) : s'.msg.read a = some (msgByte s 0 a) := by
    rw [← count] at ha
    rw [← same a ha, l.message a ha]
  obtain ⟨t, run, ended, -, c, -⟩ := l.run_alone hv l.message hs
  obtain ⟨t', run', ended', -, c', -⟩ := l'.run_alone hv' message hs'
  refine ⟨t, t', run, run', fun i hi => ?_, fun j hj => ?_, BitVec.eq_of_toNat_eq ?_⟩
  · rw [c.grp, c'.grp, if_pos hi, if_pos (count ▸ hi), cfg, code, check]
  · rw [c.out, c'.out, if_pos hj, if_pos (count ▸ hj), cfg, code, check]
  · rw [ended.finished.optr, ended'.finished.optr, count]

end Sys2Proof.Machine
end

section
/-! SUPPORT. The core's step completes in every state of the invariant (60_exceptions.md R125): in `IDLE` it changes
nothing, and a busy core has a pass under way, whose cells exist. -/

namespace Sys2Proof.Machine

theorem Inv.coreTurn_completes {s : State} (h : Inv s) : ∃ t, coreTurn s = .next t := by
  by_cases hp : s.phase = .idle
  · exact ⟨s, coreTurn_idle hp⟩
  · obtain ⟨t, ht, _⟩ := (underWay_of_inv h hp).coreTurn_passStep
    exact ⟨t, ht⟩

/-- Settles O50: the step is the core's turn, with its entry taken off the list when it is listed
(`Inv.coreTurn_completes`). -/
theorem coreNeverStopsInAnInvariantState : Obligations.CoreNeverStopsInAnInvariantState := by
  rintro s h (hs | ⟨ts, hs⟩)
  · rw [step_of_nil hs]
    exact h.coreTurn_completes
  · rw [step_of_core hs]
    exact (inv_dropTurn h (by simp [hs])).coreTurn_completes

end Sys2Proof.Machine
end

section
/-! SUPPORT. The host's reset move gives R27's table (70_reset_and_hazards.md R140): every register at its reset value,
`STATUS` and the packer's registers among them, and no cell of a buffer specified. -/

namespace Sys2Proof.Machine

theorem packerFresh_resetMachine (s : State) : PackerFresh (resetMachine s) where
  widx := resetMachine_widx s
  pos := resetMachine_pos s
  lastBit := resetMachine_lastBit s
  acc := resetMachine_acc s
  nbits := resetMachine_nbits s
  optr := resetMachine_optr s

theorem status_resetMachine (s : State) : (resetMachine s).status = 0x0000#16 := by
  rw [State.status, State.busy, resetMachine_done, resetMachine_phase]
  rfl

/-- After reset no cell of a buffer is specified (10_state.md R27): the three lists are empty. -/
theorem resetMachine_buffers_unspecified (s : State) (a : Nat) :
    (resetMachine s).msg.read a = none ∧ (resetMachine s).grp.read a = none ∧ (resetMachine s).out.read a = none :=
  ⟨Memory.read_nil a, Memory.read_nil a, Memory.read_nil a⟩

/-- Settles O40: the step ends in `resetMachine` of the state less the turn, whose registers are R27's table. -/
theorem resetMoveGivesTheResetState : Obligations.ResetMoveGivesTheResetState := by
  intro s ts hs
  have reset_step : step s = .next (resetMachine { s with turns := ts }) := step_of_host hs
  exact ⟨_, reset_step, resetMachine_piCode _, resetMachine_piCheck _, resetMachine_pktCount _, resetMachine_done _,
    resetMachine_phase _, resetMachine_blk _, resetMachine_mptr _, resetMachine_seg _, packerFresh_resetMachine _,
    resetMachine_buffers_unspecified _, resetMachine_done _, status_resetMachine _, resetMachine_cfg _,
    resetMachine_turns _, resetMachine_answer _, resetMachine_draws _⟩

end Sys2Proof.Machine
end
